-- ==== Sys2Proof/Word.lean ====
section
/-! DEFINITION. The words of the block: bytes, 32- and 64-bit registers, and the pixel (00_scope.md R6, R8). -/

namespace Sys2Proof

/-- One byte; bit 7 is the most significant (00_scope.md R7). -/
abbrev Byte := BitVec 8

/-- The width of WIDTH and HEIGHT (`DIM_BITS`, 00_scope.md R6). -/
abbrev Word32 := BitVec 32

/-- The width of POS, RUN, WPTR, OUTCAP and OUTLEN (`CNT_BITS`, 00_scope.md R6). -/
abbrev Word64 := BitVec 64

/-- A pixel: four independent unsigned 8-bit channels, compared component-wise (00_scope.md R8). -/
structure Pixel where
  r : Byte
  g : Byte
  b : Byte
  a : Byte
  deriving DecidableEq, Repr

/-- `ZERO = (0,0,0,0)` (00_scope.md R8). -/
abbrev Pixel.zero : Pixel := ⟨0, 0, 0, 0⟩

end Sys2Proof
end

