-- ==== Sys2Proof/Config.lean ====
section
/-! DEFINITION. The implementation parameters of 00_scope.md R6, and the placement parameters that the spec leaves to
the platform (92_eei_decisions.md D18, D20). -/

namespace Sys2Proof.Config

/-- `RUN_MAX`: pixels per RUN chunk (00_scope.md R6). -/
abbrev runMax : Nat := 62

/-- `CACHE_SLOTS` (00_scope.md R6). -/
abbrev cacheSlots : Nat := 64

/-- `HDR_LEN`: header bytes (00_scope.md R6). -/
abbrev hdrLen : Nat := 14

/-- `END_LEN`: end-marker bytes (00_scope.md R6). -/
abbrev endLen : Nat := 8

/-- The four bytes of the magic `"qoif"` (30_encoding.md R58). PRESUMED: the ASCII codes are from general knowledge
(93_implementation_defined.md G1; log entry 13). -/
abbrev magic : List Byte := [0x71, 0x6F, 0x69, 0x66]

/-- Offsets of IN lie below `2^66`, those of OUT below `2^64` (92_eei_decisions.md D20). -/
abbrev inLimit : Nat := 2 ^ 66

/-- See `inLimit`. -/
abbrev outLimit : Nat := 2 ^ 64

/-- `IN_BASE`: where the platform places IN. OPEN (92_eei_decisions.md D20); no rule reads it (log entry 12). -/
opaque inBase : Nat

/-- `OUT_BASE`: where the platform places OUT. OPEN (92_eei_decisions.md D20); no rule reads it (log entry 12). -/
opaque outBase : Nat

/-- `CSR_MAP`: the bus address of each control register by its number. OPEN (92_eei_decisions.md D18); no rule reads
it (log entry 12). -/
opaque csrMap : Fin 8 → Nat

end Sys2Proof.Config
end

