-- ==== Sys2Proof/Syntax.lean ====
section
/-! DEFINITION. The ten operations of the block, one constructor per row of spec/opcode_table.json, with the operands of
their mnemonic forms (30_encoding.md R64). -/

namespace Sys2Proof

/-- An operation with the operands of its mnemonic (30_encoding.md R64). The operands are not chosen by a programmer:
they are computed from the state by the operation's rule, and write down what a step did. -/
inductive Instr where
  /-- START (40_sequencer.md R70). Emits nothing. -/
  | start
  /-- RUNACC (41_run.md R90). Emits nothing. -/
  | runacc
  /-- `RUNEMIT count`, `count` in 1..62 (41_run.md R91). -/
  | runemit (count : Nat)
  /-- `INDEX slot`, `slot` in 0..63 (42_index.md R102). -/
  | index (slot : Nat)
  /-- `DIFF dr,dg,db`, each in -2..1 (43_delta.md R112). -/
  | diff (dr dg db : Int)
  /-- `LUMA dg,dr-dg,db-dg`, the first in -32..31, the others in -8..7 (43_delta.md R113). -/
  | luma (dg drg dbg : Int)
  /-- `RGB r,g,b` (44_literal.md R125). -/
  | rgb (r g b : Byte)
  /-- `RGBA r,g,b,a` (44_literal.md R126). -/
  | rgba (r g b a : Byte)
  /-- `HEADER w,h,c,s` (45_framing.md R135). -/
  | header (w h : Word32) (c s : Byte)
  /-- ENDMARK (45_framing.md R139). -/
  | endmark
  deriving DecidableEq, Repr

end Sys2Proof
end

