-- ==== Sys2Proof/WellFormed.lean ====
section
/-! DEFINITION. The operand ranges of 30_encoding.md R62 and R64. The encodings that R63 calls well-formed but never
emitted (zero DIFF, LUMA inside the DIFF range, a channel byte other than 3 or 4) ARE well-formed here: R63 forbids
turning them into a format rule. -/

namespace Sys2Proof

/-- Each operand lies in the range that its field can hold (30_encoding.md R62). -/
def Instr.wellFormed : Instr → Bool
  | .start => true
  | .runacc => true
  | .runemit count => decide (1 ≤ count ∧ count ≤ 62)
  | .index slot => decide (slot < 64)
  | .diff dr dg db => decide ((-2 ≤ dr ∧ dr ≤ 1) ∧ (-2 ≤ dg ∧ dg ≤ 1) ∧ (-2 ≤ db ∧ db ≤ 1))
  | .luma dg drg dbg => decide ((-32 ≤ dg ∧ dg ≤ 31) ∧ (-8 ≤ drg ∧ drg ≤ 7) ∧ (-8 ≤ dbg ∧ dbg ≤ 7))
  | .rgb _ _ _ => true
  | .rgba _ _ _ _ => true
  | .header _ _ _ _ => true
  | .endmark => true

end Sys2Proof
end

