-- ==== Sys2Proof/Decode.lean ====
section
/-! DEFINITION. The output formats read and written: `decode` is the inverse of each format of 30_encoding.md, total on
any bytes and rejecting by name; `encode` is the output byte serializer (R51 to R59). The block itself decodes nothing
(30_encoding.md, opening); a part of the stream is found by its position, not by its bytes (R61; log entry 11). -/

namespace Sys2Proof

/-- The three parts of a stream, in order (20_memory.md R34). -/
inductive Part where
  | header
  | chunk
  | endMark
  deriving DecidableEq, Repr

/-- Why bytes are no encoding of the part asked for. There is no reserved first byte of a chunk (30_encoding.md R60,
R63), so a chunk is rejected only when bytes are missing. -/
inductive Reject where
  /-- No byte at all. -/
  | noByte
  /-- The first byte asks for more bytes than there are (30_encoding.md R61). -/
  | truncated
  /-- The first four bytes of a header are not the magic (30_encoding.md R58). -/
  | badMagic
  /-- The eight bytes are not the end marker (30_encoding.md R59). -/
  | badEndMark
  deriving DecidableEq, Repr

/-- `v[hi:lo]` of a byte, with `n = hi - lo + 1` (00_scope.md R7). -/
def field (b : Byte) (lo n : Nat) : BitVec n := b.extractLsb' lo n

/-- A field that holds a biased value, read back without the bias (30_encoding.md R62). -/
def unbias (n : Nat) (v : BitVec n) (bias : Int) : Int := (v.toNat : Int) - bias

/-- The four bytes of a 32-bit value, most significant first (20_memory.md R37). -/
def be32 (v : Word32) : List Byte :=
  [v.extractLsb' 24 8, v.extractLsb' 16 8, v.extractLsb' 8 8, v.extractLsb' 0 8]

/-- The 32-bit value of four bytes, most significant first (20_memory.md R37). -/
def ofBe32 (b3 b2 b1 b0 : Byte) : Word32 := b3 ++ b2 ++ b1 ++ b0

/-- One chunk, by its first byte (30_encoding.md R60): the two full-byte tags are tested before the top two bits. -/
def decodeChunk : List Byte → Except Reject (Instr × List Byte)
  | [] => .error .noByte
  | t :: rest =>
    if t = 0xFE then
      match rest with
      | r :: g :: b :: rest => .ok (.rgb r g b, rest)
      | _ => .error .truncated
    else if t = 0xFF then
      match rest with
      | r :: g :: b :: a :: rest => .ok (.rgba r g b a, rest)
      | _ => .error .truncated
    else if field t 6 2 = 0b00#2 then .ok (.index (field t 0 6).toNat, rest)
    else if field t 6 2 = 0b01#2 then
      .ok (.diff (unbias 2 (field t 4 2) 2) (unbias 2 (field t 2 2) 2) (unbias 2 (field t 0 2) 2), rest)
    else if field t 6 2 = 0b10#2 then
      match rest with
      | u :: rest => .ok (.luma (unbias 6 (field t 0 6) 32) (unbias 4 (field u 4 4) 8) (unbias 4 (field u 0 4) 8), rest)
      | _ => .error .truncated
    else .ok (.runemit ((field t 0 6).toNat + 1), rest)

/-- The 14-byte header (30_encoding.md R58). Any channel byte is accepted (R63). -/
def decodeHeader : List Byte → Except Reject (Instr × List Byte)
  | m0 :: m1 :: m2 :: m3 :: w3 :: w2 :: w1 :: w0 :: h3 :: h2 :: h1 :: h0 :: c :: s :: rest =>
    if [m0, m1, m2, m3] = Config.magic then .ok (.header (ofBe32 w3 w2 w1 w0) (ofBe32 h3 h2 h1 h0) c s, rest)
    else .error .badMagic
  | [] => .error .noByte
  | _ => .error .truncated

/-- The 8-byte end marker (30_encoding.md R59). -/
def decodeEndMark : List Byte → Except Reject (Instr × List Byte)
  | e0 :: e1 :: e2 :: e3 :: e4 :: e5 :: e6 :: e7 :: rest =>
    if [e0, e1, e2, e3, e4, e5, e6, e7] = [0, 0, 0, 0, 0, 0, 0, 1] then .ok (.endmark, rest)
    else .error .badEndMark
  | [] => .error .noByte
  | _ => .error .truncated

/-- The instruction at the head of the bytes of one part of a stream, and the bytes after it. -/
def decode : Part → List Byte → Except Reject (Instr × List Byte)
  | .header => decodeHeader
  | .chunk => decodeChunk
  | .endMark => decodeEndMark

/-- The part an operation's bytes belong to; START and RUNACC emit nothing (30_encoding.md R51, R64). -/
def partOf : Instr → Option Part
  | .start => none
  | .runacc => none
  | .runemit _ => some .chunk
  | .index _ => some .chunk
  | .diff _ _ _ => some .chunk
  | .luma _ _ _ => some .chunk
  | .rgb _ _ _ => some .chunk
  | .rgba _ _ _ _ => some .chunk
  | .header _ _ _ _ => some .header
  | .endmark => some .endMark

/-- The bytes an operation emits, first byte first (30_encoding.md R51 to R59, field biases R62). -/
def encode : Instr → List Byte
  | .start => []
  | .runacc => []
  | .runemit count => [(0b11#2 ++ BitVec.ofNat 6 (count - 1) : BitVec (2 + 6))]
  | .index slot => [(0b00#2 ++ BitVec.ofNat 6 slot : BitVec (2 + 6))]
  | .diff dr dg db =>
    [(0b01#2 ++ BitVec.ofInt 2 (dr + 2) ++ BitVec.ofInt 2 (dg + 2) ++ BitVec.ofInt 2 (db + 2) : BitVec (2 + 2 + 2 + 2))]
  | .luma dg drg dbg =>
    [(0b10#2 ++ BitVec.ofInt 6 (dg + 32) : BitVec (2 + 6)),
     (BitVec.ofInt 4 (drg + 8) ++ BitVec.ofInt 4 (dbg + 8) : BitVec (4 + 4))]
  | .rgb r g b => [0xFE, r, g, b]
  | .rgba r g b a => [0xFF, r, g, b, a]
  | .header w h c s => Config.magic ++ be32 w ++ be32 h ++ [c, s]
  | .endmark => [0, 0, 0, 0, 0, 0, 0, 1]

/-- `n` bytes of a number, least significant first: the opcode table's numbering of a row's bits. -/
def bytesLow : Nat → Nat → List Byte
  | 0, _ => []
  | n + 1, w => BitVec.ofNat 8 w :: bytesLow n (w / 256)

/-- A number's first `n` 32-bit words, each most significant byte first: how the table numbers the HEADER row, whose
match it gives over the first four bytes, most significant byte first (log entry 10). -/
def wordsHigh : Nat → Nat → List Byte
  | 0, _ => []
  | n + 1, w => be32 (BitVec.ofNat 32 w) ++ wordsHigh n (w / 2 ^ 32)

/-- The instruction of a decode that succeeded and whose bytes cover `n` bytes of a row. -/
def wholeRow (n : Nat) : Except Reject (Instr × List Byte) → Option Instr
  | .ok (i, _) => if n ≤ (encode i).length then some i else none
  | .error _ => none

/-- The instruction the decoder reads from a table row's word (log entry 10). Bits above `nbits` are zero. A word of at
least 32 bits that begins with the magic is a HEADER, in either numbering; one of 64 bits that is the end marker, in
either numbering, an ENDMARK; any other word is a chunk. No word stands for START or RUNACC, which have no encoding. -/
def decodeTableWord (nbits w : Nat) : Option Instr :=
  let n := nbits / 8
  let v := w % 2 ^ nbits
  if n = 0 then none
  else if 4 ≤ n ∧ (bytesLow 4 v = Config.magic) then wholeRow n (decode .header (bytesLow 14 v))
  else if 4 ≤ n ∧ (wordsHigh 1 v = Config.magic) then
    wholeRow n (decode .header (wordsHigh 3 v ++ [BitVec.ofNat 8 (v / 2 ^ 104), BitVec.ofNat 8 (v / 2 ^ 96)]))
  else if n = 8 ∧ (v = 1 ∨ bytesLow 8 v = encode .endmark) then wholeRow n (decode .endMark (encode .endmark))
  else wholeRow n (decode .chunk (bytesLow 8 v))

end Sys2Proof
end

