-- ==== Sys2Proof/Machine/State.lean ====
section
/-! DEFINITION. The state of the block and of its two memory spaces (10_state.md R10, 20_memory.md R30), the reasons a
step can stop, and the state after hardware reset (10_state.md R27). -/

namespace Sys2Proof.Machine

/-- A byte space: the bytes it holds, by offset, offsets strictly rising (see `Memory.wf`). An unlisted offset has no
value: the spec gives IN and OUT no contents of their own (10_state.md R27; log entries 4 and 5). -/
abbrev Memory := List Host.Cell

/-- The six phases (10_state.md R14). -/
inductive Phase where
  /-- Code 0: after reset, no encode has been started. -/
  | idle
  /-- Code 1: scanning positions `0 .. NPIX`. -/
  | scan
  /-- Code 2 (HDR): scan finished, header not yet written. -/
  | hdr
  /-- Code 3 (END): header written, end marker not yet written. -/
  | fin
  /-- Code 4: output complete and valid. -/
  | done
  /-- Code 5: a fault was raised, output invalid. -/
  | error
  deriving DecidableEq, Repr

/-- The 2-bit fault code ERR (10_state.md R17); code 3 is never taken. -/
inductive ErrCode where
  /-- Code 0. -/
  | none
  /-- Code 1, ALLOC: an operation's bytes do not fit in OUT. -/
  | alloc
  /-- Code 2, IO: never set by the block (60_exceptions.md R154). -/
  | io
  deriving DecidableEq, Repr

/-- The eight control registers, in the order of their numbers 0 to 7 (10_state.md R20). -/
inductive Csr where
  | ctrl
  | status
  | width
  | height
  | cspace
  | outcap
  | outlen
  | channels
  deriving DecidableEq, Repr

/-- One thing the host does between two steps of the block (log entry 2). -/
inductive HostEvent where
  /-- Writes a control register; a register takes the low bits its width holds (log entry 7). -/
  | write (r : Csr) (v : Word64)
  /-- Places one byte of IN (70_reset_and_hazards.md R177). -/
  | placeIn (offset : Nat) (v : Byte)
  /-- Writes one byte of OUT (70_reset_and_hazards.md R184). -/
  | placeOut (offset : Nat) (v : Byte)
  /-- Resets the hardware (70_reset_and_hazards.md R175, R176). -/
  | reset
  /-- Does nothing: the block takes its step if it has one. -/
  | yield
  deriving DecidableEq, Repr

/-- Why the machine stops. Neither is a fault of the block, whose one fault ALLOC is a change of state
(60_exceptions.md R156). -/
inductive Fault where
  /-- Raised by `hostAct`: the host accessed IN or OUT while BUSY, a race with no defined outcome (20_memory.md R43,
  93_implementation_defined.md U6). Safe: nothing is claimed of what follows (log entry 6). -/
  | hostRace
  /-- Raised by `hostAct`: the host named an offset that the spec's address spaces do not hold (92_eei_decisions.md
  D20). Safe (log entry 14). -/
  | noSuchAddress
  deriving DecidableEq, Repr

/-- Why the model gives an operation no meaning. -/
inductive Refusal where
  /-- An instruction without a meaning yet, by its mnemonic. Safe. -/
  | notModelled (mnemonic : String)
  /-- Raised by a scan operation: the host did not provide the four IN bytes of the pixel at POS, a premise of the
  spec (93_implementation_defined.md U12, `refuse`). Safe (log entry 4). -/
  | inputMissing
  /-- Raised by a meaning: the block does not perform that operation with those operands in that state
  (40_sequencer.md R71, R75; 30_encoding.md R64). No step raises it. Safe (log entry 8). -/
  | notSelected
  deriving DecidableEq, Repr

/-- Everything the spec gives the machine (10_state.md R10, 20_memory.md R30), and the host's pending actions. -/
structure State where
  /-- PREV (10_state.md R11). -/
  prev : Pixel
  /-- RUN (10_state.md R12). -/
  run : Word64
  /-- CACHE[0..63] (10_state.md R18). -/
  cache : Vector Pixel 64
  /-- POS (10_state.md R13). -/
  pos : Word64
  /-- PHASE (10_state.md R14). -/
  phase : Phase
  /-- ASEEN (10_state.md R16). -/
  aseen : Bool
  /-- ERR (10_state.md R17). -/
  err : ErrCode
  /-- WPTR (10_state.md R19). -/
  wptr : Word64
  /-- WIDTH (10_state.md R23). -/
  width : Word32
  /-- HEIGHT (10_state.md R23). -/
  height : Word32
  /-- CSPACE (10_state.md R23). -/
  cspace : Byte
  /-- OUTCAP (10_state.md R23). -/
  outcap : Word64
  /-- The IN space (20_memory.md R31). -/
  inp : Memory
  /-- The OUT space (20_memory.md R33). -/
  out : Memory
  /-- The MODEL's own field: what the host does next, oldest first (log entry 2). -/
  host : List HostEvent
  deriving DecidableEq, Repr

/-- The machine right after hardware reset (10_state.md R27, 70_reset_and_hazards.md R175). PREV, RUN, CACHE, POS, ASEEN
and WPTR are unspecified there: their zeros are a DESIGN CHOICE (log entry 1), which no rule reads before START writes
them. -/
def State.reset : State where
  prev := Pixel.zero
  run := 0
  cache := Vector.replicate 64 Pixel.zero
  pos := 0
  phase := .idle
  aseen := false
  err := .none
  wptr := 0
  width := 0
  height := 0
  cspace := 0
  outcap := 0
  inp := []
  out := []
  host := []

end Sys2Proof.Machine
end

