-- ==== Sys2Proof/Machine/Operands.lean ====
section
/-! DEFINITION. What an operation computes from pixels and registers: the seed, the hash, the channel deltas and their
range tests, and NPIX. -/

namespace Sys2Proof.Machine

/-- `SEED = (0,0,0,255)`, the pixel before the image (00_scope.md R8, 10_state.md R11). -/
def seed : Pixel := ⟨0, 0, 0, 255⟩

/-- The exact sum that the hash reduces (42_index.md R100). -/
def hashSum (p : Pixel) : Nat := 3 * p.r.toNat + 5 * p.g.toNat + 7 * p.b.toNat + 11 * p.a.toNat

/-- `hash(p) = (3r + 5g + 7b + 11a) mod 64` (42_index.md R100). -/
def hashOf (p : Pixel) : Fin 64 := ⟨hashSum p % 64, Nat.mod_lt _ (by decide)⟩

/-- The wrapped 8-bit difference read as signed, `-128 .. 127` (43_delta.md R110). -/
def sdelta8 (x y : Byte) : Int := (x - y).toInt

/-- The DIFF range, inclusive and asymmetric (43_delta.md R112). -/
def diffFits (dr dg db : Int) : Bool :=
  decide ((-2 ≤ dr ∧ dr ≤ 1) ∧ (-2 ≤ dg ∧ dg ≤ 1) ∧ (-2 ≤ db ∧ db ≤ 1))

/-- The LUMA range; `drg` and `dbg` are the exact differences `dr - dg`, `db - dg` (43_delta.md R113, R114). -/
def lumaFits (dg drg dbg : Int) : Bool :=
  decide ((-32 ≤ dg ∧ dg ≤ 31) ∧ (-8 ≤ drg ∧ drg ≤ 7) ∧ (-8 ≤ dbg ∧ dbg ≤ 7))

/-- `NPIX = WIDTH * HEIGHT`, the exact product; no register (10_state.md R15). -/
def npix (s : State) : Nat := s.width.toNat * s.height.toNat

/-- The tests 3 to 5 of the decision tree on a pixel (40_sequencer.md R75): cache hit, then the deltas behind the alpha
gate (43_delta.md R111), then RGBA (44_literal.md R127). -/
def chunkFor (cache : Vector Pixel 64) (prev px : Pixel) : Instr :=
  if cache.get (hashOf px) = px then .index (hashOf px)
  else if px.a = prev.a then
    let dr := sdelta8 px.r prev.r
    let dg := sdelta8 px.g prev.g
    let db := sdelta8 px.b prev.b
    if diffFits dr dg db then .diff dr dg db
    else if lumaFits dg (dr - dg) (db - dg) then .luma dg (dr - dg) (db - dg)
    else .rgb px.r px.g px.b
  else .rgba px.r px.g px.b px.a

end Sys2Proof.Machine
end

