-- ==== Sys2Proof/Machine/Ops.lean ====
section
/-! DEFINITION. The shared operations over memory and registers: byte spaces, `Cur`, `Emit`, `Commit`, `Next`, and the
one fault entry. -/

namespace Sys2Proof.Machine

/-- The canonical form: offsets strictly rising. No listed byte can equal what an unlisted offset reads as, since that
is no value at all. -/
abbrev Memory.wf (m : Memory) : Prop := m.Pairwise (fun x y => x.1 < y.1)

/-- The byte at an offset, if the space holds one. -/
def Memory.read : Memory → Nat → Option Byte
  | [], _ => none
  | (k, v) :: m, a => if a = k then some v else Memory.read m a

/-- Stores one byte. -/
def Memory.write : Memory → Nat → Byte → Memory
  | [], a, v => [(a, v)]
  | (k, w) :: m, a, v =>
    if a < k then (a, v) :: (k, w) :: m
    else if a = k then (a, v) :: m
    else (k, w) :: Memory.write m a v

/-- `MemWrite(addr, n, v)`: the bytes at `addr, addr+1, ..`, the first at `addr` (20_memory.md R33). -/
def Memory.writeBytes : Memory → Nat → List Byte → Memory
  | m, _, [] => m
  | m, a, v :: vs => Memory.writeBytes (Memory.write m a v) (a + 1) vs

/-- `MemRead(4*i, 4)` as a pixel: r, g, b, a at rising offsets (20_memory.md R31, R32). No value when the host did not
provide all four bytes. -/
def Memory.pixel (m : Memory) (i : Nat) : Option Pixel :=
  match m.read (4 * i), m.read (4 * i + 1), m.read (4 * i + 2), m.read (4 * i + 3) with
  | some r, some g, some b, some a => some ⟨r, g, b, a⟩
  | _, _, _, _ => none

/-- `BUSY`: PHASE in SCAN, HDR, END (10_state.md R14). -/
def busy (s : State) : Bool :=
  match s.phase with
  | .idle => false
  | .scan => true
  | .hdr => true
  | .fin => true
  | .done => false
  | .error => false

/-- `sent`: POS = NPIX, one past the last real pixel (40_sequencer.md R74). -/
def sentinel (s : State) : Bool := decide (s.pos.toNat = npix s)

/-- `Cur()`, the pixel under evaluation: from IN at a real position, else zero (40_sequencer.md R73). -/
def cur (s : State) : Option Pixel :=
  if s.pos.toNat < npix s then s.inp.pixel s.pos.toNat else some Pixel.zero

/-- `raise AllocFault`, taken on the state BEFORE the faulting step: ERR and PHASE change and nothing else does
(60_exceptions.md R151, R156). There is no return from a fault: only START (`startState`) or reset (`hardReset`) leaves
ERROR (R161). -/
def raiseAlloc (s : State) : State := { s with err := .alloc, phase := .error }

/-- The bytes at WPTR, and WPTR past them (20_memory.md R35). DESIGN CHOICE: OUT has every byte below OUTCAP; what a
platform with fewer does is open (60_exceptions.md R155; log entry 20). -/
def appendBytes (bytes : List Byte) (s : State) : State :=
  { s with
    out := s.out.writeBytes s.wptr.toNat bytes
    wptr := s.wptr + BitVec.ofNat 64 bytes.length }

/-- `Emit(n, v)`: all the bytes at WPTR, or none when they do not fit; the comparison is exact (20_memory.md R35). -/
def emit (bytes : List Byte) (s : State) : Option State :=
  if s.outcap.toNat < s.wptr.toNat + bytes.length then none else some (appendBytes bytes s)

/-- `Commit(px)`: the pixel's cache slot, then PREV (40_sequencer.md R77). -/
def commit (px : Pixel) (s : State) : State :=
  { s with cache := s.cache.set (hashOf px).val px (hashOf px).isLt, prev := px }

/-- `Next()`: the next position, or the end of the scan (40_sequencer.md R78). -/
def nextPos (s : State) : State :=
  { s with
    phase := if sentinel s then .hdr else s.phase
    pos := if sentinel s then s.pos else s.pos + 1 }

/-- The writes START makes before it looks at OUTCAP (40_sequencer.md R70, 10_state.md R26); slot 53 is `hash SEED`. -/
def initEncode (s : State) : State :=
  { s with
    prev := seed
    cache := (Vector.replicate 64 Pixel.zero).set 53 seed
    run := 0
    pos := 0
    aseen := false
    wptr := 14
    err := .none }

/-- START on a block that is not BUSY (40_sequencer.md R70): with no room for the header it faults after its
initialising writes (60_exceptions.md R156). -/
def startState (s : State) : State :=
  if s.outcap.toNat < Config.hdrLen then raiseAlloc (initEncode s)
  else { initEncode s with phase := .scan }

/-- Hardware reset: the reset values of the block's registers (10_state.md R27, 70_reset_and_hazards.md R176); IN, OUT
and the host's own plans are no state of the block and stay (log entry 3). -/
def hardReset (s : State) : State :=
  { State.reset with inp := s.inp, out := s.out, host := s.host }

end Sys2Proof.Machine
end

