-- ==== Sys2Proof/Machine/Flags.lean ====
section
/-! DEFINITION. ASEEN, and the fields that STATUS, OUTLEN and CHANNELS show of the state. The block has no arithmetic
condition codes (10_state.md R17). -/

namespace Sys2Proof.Machine

/-- The prologue of every scan step: a real pixel with alpha below 255 sets ASEEN, the sentinel never does
(40_sequencer.md R74, 10_state.md R16). -/
def noteAlpha (px : Pixel) (s : State) : State :=
  { s with aseen := s.aseen || (!sentinel s && decide (px.a.toNat < 255)) }

/-- The channel byte: `3 + ASEEN` (45_framing.md R136). -/
def channelByte (aseen : Bool) : Byte := if aseen then 4 else 3

/-- The 3-bit code of a phase (10_state.md R14). -/
def Phase.code : Phase → BitVec 3
  | .idle => 0
  | .scan => 1
  | .hdr => 2
  | .fin => 3
  | .done => 4
  | .error => 5

/-- The 2-bit code of ERR (10_state.md R17). -/
def ErrCode.code : ErrCode → BitVec 2
  | .none => 0
  | .alloc => 1
  | .io => 2

/-- STATUS: bits 7:6 zero, 5:4 ERR, 3 BUSY, 2:0 PHASE (10_state.md R21). -/
def statusByte (s : State) : Byte :=
  (0#2 ++ s.err.code ++ BitVec.ofBool (busy s) ++ s.phase.code : BitVec (2 + 2 + 1 + 3))

/-- OUTLEN: WPTR in DONE, else 0 (10_state.md R24). -/
def outlen (s : State) : Word64 := if s.phase = .done then s.wptr else 0

/-- CHANNELS: the channel count in DONE, else 0 (10_state.md R24). -/
def channels (s : State) : Byte := if s.phase = .done then channelByte s.aseen else 0

end Sys2Proof.Machine
end

