-- ==== Sys2Proof/Machine/Select.lean ====
section
/-! DEFINITION. The chunk selector, and the shape that the meanings of the scan operations share: `ScanStep` of
40_sequencer.md R74 around the operation's own rule. -/

namespace Sys2Proof.Machine

/-- `Select(sent, px)`, the decision tree in priority order (40_sequencer.md R75, R76): run continuation, run flush, then
tests 3 to 5. -/
def select (px : Pixel) (s : State) : Instr :=
  if !sentinel s && decide (px = s.prev) then .runacc
  else if 0 < s.run.toNat then .runemit (min s.run.toNat Config.runMax)
  else chunkFor s.cache s.prev px

/-- The HEADER operation with its operands, the registers' contents and `3 + ASEEN` (45_framing.md R135). -/
def headerOf (s : State) : Instr := .header s.width s.height (channelByte s.aseen) s.cspace

/-- A scan operation: performed when it is the one that Select gives for the pixel under evaluation, its operands
included (40_sequencer.md R74, R75); `body` gets the pixel and the state with the alpha noted, and answers nothing when
its Emit does not fit. Then the fault is taken on the state before the step (60_exceptions.md R156). -/
def scanOp (i : Instr) (body : Pixel → State → Option State) (s : State) : Host.Outcome State Fault Refusal :=
  match s.phase, cur s with
  | .scan, some px =>
    if select px s = i then
      match body px (noteAlpha px s) with
      | some t => .next t
      | none => .next (raiseAlloc s)
    else .refused .notSelected
  | .scan, none => .refused .inputMissing
  | _, _ => .refused .notSelected

/-- What INDEX, DIFF, LUMA, RGB and RGBA do alike: emit the bytes, Commit, Next (40_sequencer.md R77, R78). -/
def chunkBody (bytes : List Byte) (px : Pixel) (s : State) : Option State :=
  (emit bytes s).map fun t => nextPos (commit px t)

end Sys2Proof.Machine
end

