-- ==== Sys2Proof/Machine/Delta.lean ====
section
/-! DEFINITION. DIFF and LUMA (43_delta.md). -/

namespace Sys2Proof.Machine

/-- DIFF: one byte of three biased deltas (43_delta.md R112). -/
def execDiff (dr dg db : Int) (s : State) : Host.Outcome State Fault Refusal :=
  scanOp (.diff dr dg db) (chunkBody (encode (.diff dr dg db))) s

/-- LUMA: two bytes, the green delta and the red and blue deltas relative to it (43_delta.md R113). -/
def execLuma (dg drg dbg : Int) (s : State) : Host.Outcome State Fault Refusal :=
  scanOp (.luma dg drg dbg) (chunkBody (encode (.luma dg drg dbg))) s

end Sys2Proof.Machine
end

