-- ==== Sys2Proof/Machine/Framing.lean ====
section
/-! DEFINITION. HEADER and ENDMARK (45_framing.md). -/

namespace Sys2Proof.Machine

/-- HEADER: 14 bytes at offset 0, reserved by START, so it cannot fault; WPTR stays (45_framing.md R135).
That OUT has these bytes is log entry 20. -/
def execHeader (w h : Word32) (c cs : Byte) (s : State) : Host.Outcome State Fault Refusal :=
  if s.phase = .hdr ∧ headerOf s = .header w h c cs then
    .next { s with out := s.out.writeBytes 0 (encode (.header w h c cs)), phase := .fin }
  else .refused .notSelected

/-- ENDMARK: the 8-byte end marker at WPTR, and DONE (45_framing.md R139). -/
def execEndmark (s : State) : Host.Outcome State Fault Refusal :=
  if s.phase = .fin then
    match emit (encode .endmark) s with
    | some t => .next { t with phase := .done }
    | none => .next (raiseAlloc s)
  else .refused .notSelected

end Sys2Proof.Machine
end

