-- ==== Sys2Proof/Machine/Index.lean ====
section
/-! DEFINITION. INDEX (42_index.md). -/

namespace Sys2Proof.Machine

/-- INDEX: one byte, the slot number (42_index.md R102). -/
def execIndex (slot : Nat) (s : State) : Host.Outcome State Fault Refusal :=
  scanOp (.index slot) (chunkBody (encode (.index slot))) s

end Sys2Proof.Machine
end

