-- ==== Sys2Proof/Machine/Literal.lean ====
section
/-! DEFINITION. RGB and RGBA (44_literal.md). -/

namespace Sys2Proof.Machine

/-- RGB: the tag and the three colour channels, alpha unsent (44_literal.md R125). -/
def execRgb (r g b : Byte) (s : State) : Host.Outcome State Fault Refusal :=
  scanOp (.rgb r g b) (chunkBody (encode (.rgb r g b))) s

/-- RGBA: the tag and all four channels (44_literal.md R126). -/
def execRgba (r g b a : Byte) (s : State) : Host.Outcome State Fault Refusal :=
  scanOp (.rgba r g b a) (chunkBody (encode (.rgba r g b a))) s

end Sys2Proof.Machine
end

