-- ==== Sys2Proof/Machine/Run.lean ====
section
/-! DEFINITION. RUNACC and RUNEMIT (41_run.md). -/

namespace Sys2Proof.Machine

/-- One more pixel of the run (41_run.md R90). -/
def extendRun (s : State) : State := { s with run := s.run + 1, pos := s.pos + 1 }

/-- RUNACC's own rule (41_run.md R90). -/
def accBody (_px : Pixel) (s : State) : Option State := some (extendRun s)

/-- RUNACC: RUN and POS advance, nothing is emitted (41_run.md R90). -/
def execRunacc (s : State) : Host.Outcome State Fault Refusal :=
  scanOp .runacc accBody s

/-- What RUNEMIT does once its byte is emitted: RUN loses the chunk's pixels, and the flush that empties it at the
sentinel ends the scan; POS never moves (41_run.md R91, 40_sequencer.md R79). -/
def takeFromRun (count : Nat) (s : State) : State :=
  { s with
    run := s.run - BitVec.ofNat 64 count
    phase := if s.run - BitVec.ofNat 64 count = 0 ∧ sentinel s = true then .hdr else s.phase }

/-- RUNEMIT's own rule: the RUN chunk, then the run (41_run.md R91). -/
def runBody (count : Nat) (_px : Pixel) (s : State) : Option State :=
  (emit (encode (.runemit count)) s).map (takeFromRun count)

/-- RUNEMIT: one RUN chunk of `count` pixels (41_run.md R91). -/
def execRunemit (count : Nat) (s : State) : Host.Outcome State Fault Refusal :=
  scanOp (.runemit count) (runBody count) s

end Sys2Proof.Machine
end

