-- ==== Sys2Proof/Machine/Sequencer.lean ====
section
/-! DEFINITION. START (40_sequencer.md section 1). -/

namespace Sys2Proof.Machine

/-- START (40_sequencer.md R70); while BUSY it is ignored (10_state.md R21). -/
def execStart (s : State) : Host.Outcome State Fault Refusal :=
  .next (if busy s then s else startState s)

end Sys2Proof.Machine
end

