-- ==== Sys2Proof/Machine/Block.lean ====
section
/-! DEFINITION. The block's own step (40_sequencer.md R71) and the host's register port (10_state.md R20 to R24). -/

namespace Sys2Proof.Machine

/-- The operation the block performs next, with its operands: none when it is not BUSY, and none when the pixel under
evaluation was not provided (40_sequencer.md R71). -/
def current (s : State) : Option Instr :=
  match s.phase with
  | .scan => (cur s).map fun px => select px s
  | .hdr => some (headerOf s)
  | .fin => some .endmark
  | .idle => none
  | .done => none
  | .error => none

/-- The block's step: exactly one operation, chosen by the phase; in IDLE, DONE and ERROR it has no step and nothing
changes (40_sequencer.md R71, 45_framing.md R140; log entry 2). -/
def blockStep (s : State) : Host.Outcome State Fault Refusal :=
  match current s with
  | some i => exec i s
  | none => if busy s then .refused .inputMissing else .next s

/-- What the host reads from a control register, zero-extended (10_state.md R20, R21, R23, R24). Reads change nothing. -/
def readCsr (r : Csr) (s : State) : Word64 :=
  match r with
  | .ctrl => 0
  | .status => (statusByte s).setWidth 64
  | .width => s.width.setWidth 64
  | .height => s.height.setWidth 64
  | .cspace => s.cspace.setWidth 64
  | .outcap => s.outcap
  | .outlen => outlen s
  | .channels => (channels s).setWidth 64

/-- The control register of a number 0 to 7 (10_state.md R20). -/
def csrOfNumber : Nat → Option Csr
  | 0 => some .ctrl
  | 1 => some .status
  | 2 => some .width
  | 3 => some .height
  | 4 => some .cspace
  | 5 => some .outcap
  | 6 => some .outlen
  | 7 => some .channels
  | _ => none

/-- The four plain read-write registers; a write while BUSY is ignored (10_state.md R23). The others store nothing:
CTRL is not stored (R21), STATUS, OUTLEN and CHANNELS are read only (R20; log entry 7). -/
def setConfig (r : Csr) (v : Word64) (s : State) : State :=
  if busy s then s
  else match r with
    | .width => { s with width := v.setWidth 32 }
    | .height => { s with height := v.setWidth 32 }
    | .cspace => { s with cspace := v.setWidth 8 }
    | .outcap => { s with outcap := v }
    | .ctrl => s
    | .status => s
    | .outlen => s
    | .channels => s

/-- A host write to a control register: 1 in bit 0 of CTRL performs START (10_state.md R21). -/
def writeCsr (r : Csr) (v : Word64) (s : State) : Host.Outcome State Fault Refusal :=
  if r = .ctrl ∧ v.extractLsb' 0 1 = 1 then exec .start s else .next (setConfig r v s)

/-- A host access to IN or OUT at an offset: a race while BUSY (20_memory.md R43), and no such byte outside the space
(log entry 14). -/
def placeByte (limit offset : Nat) (t : State) (s : State) : Host.Outcome State Fault Refusal :=
  if busy s then .fault .hostRace
  else if limit ≤ offset then .fault .noSuchAddress
  else .next t

/-- One turn of the host; at `yield` the turn is the block's (log entry 2). -/
def hostAct (e : HostEvent) (s : State) : Host.Outcome State Fault Refusal :=
  match e with
  | .write r v => writeCsr r v s
  | .placeIn a v => placeByte Config.inLimit a { s with inp := s.inp.write a v } s
  | .placeOut a v => placeByte Config.outLimit a { s with out := s.out.write a v } s
  | .reset => .next (hardReset s)
  | .yield => blockStep s

/-- What the host may conclude from a byte of OUT: its value in DONE below OUTLEN, and nothing otherwise
(20_memory.md R33, R43, 70_reset_and_hazards.md R184, 93_implementation_defined.md U5). -/
def hostOut (s : State) (a : Nat) : Option Byte :=
  if s.phase = .done ∧ a < s.wptr.toNat then s.out.read a else none

end Sys2Proof.Machine
end

