-- ==== Sys2Proof/Machine/Fetch.lean ====
section
/-! DEFINITION. The block fetches no instructions (20_memory.md R45): an operation runs because the state selects it.
`placeInstr` makes a state whose next step performs a given operation (log entry 9). -/

namespace Sys2Proof.Machine

/-- A busy one-row image of `w` pixels at position `p`, with room in OUT and the cache slot of the pixel under
evaluation set. -/
def atPixel (w p : Nat) (prev px slotValue : Pixel) (s : State) : State :=
  { s with
    host := []
    phase := .scan
    err := .none
    width := BitVec.ofNat 32 w
    height := 1
    pos := BitVec.ofNat 64 p
    run := 0
    wptr := 14
    outcap := 64
    prev := prev
    cache := s.cache.set (hashOf px).val slotValue (hashOf px).isLt
    inp := s.inp.writeBytes (4 * p) [px.r, px.g, px.b, px.a] }

/-- A pixel whose hash is `slot` (`3 * 43 = 129`, which is 1 modulo 64). -/
def pixelOfSlot (slot : Nat) : Pixel := ⟨BitVec.ofNat 8 (43 * slot % 64), 0, 0, 0⟩

/-- The previous pixel that the placed deltas are taken against. -/
def middle : Pixel := ⟨128, 128, 128, 255⟩

/-- `middle` moved by three deltas. -/
def moved (dr dg db : Int) : Pixel :=
  ⟨128 + BitVec.ofInt 8 dr, 128 + BitVec.ofInt 8 dg, 128 + BitVec.ofInt 8 db, 255⟩

/-- A state like `s` whose next step performs the operation. Three kinds of operand are never selected in any state
(30_encoding.md R63): LUMA deltas that pass the DIFF test (the step is then that DIFF), a channel byte other than 3 or
4 (the step writes 3), and operands outside their ranges. A DIFF of zero deltas is selected at a sentinel whose slot 0
lost its zero pixel, a state no run reaches (40_sequencer.md R81). -/
def placeInstr (i : Instr) (s : State) : State :=
  match i with
  | .start => { s with host := [.write .ctrl 1], phase := .idle, err := .none }
  | .runacc => atPixel 1 0 seed seed seed s
  | .runemit count =>
    { atPixel count count seed Pixel.zero Pixel.zero s with run := BitVec.ofNat 64 count, inp := s.inp }
  | .index slot => atPixel 1 0 seed (pixelOfSlot slot) (pixelOfSlot slot) s
  | .diff dr dg db =>
    if dr = 0 ∧ dg = 0 ∧ db = 0 then { atPixel 0 0 Pixel.zero Pixel.zero seed s with inp := s.inp }
    else atPixel 1 0 middle (moved dr dg db) Pixel.zero s
  | .luma dg drg dbg => atPixel 1 0 middle (moved (drg + dg) dg (dbg + dg)) Pixel.zero s
  | .rgb r g b => atPixel 1 0 ⟨r, g + 128, b, 255⟩ ⟨r, g, b, 255⟩ Pixel.zero s
  | .rgba r g b a => atPixel 1 0 ⟨r, g, b, ~~~a⟩ ⟨r, g, b, a⟩ ⟨~~~r, g, b, a⟩ s
  | .header w h c cs =>
    { s with host := [], phase := .hdr, err := .none, width := w, height := h, aseen := decide (c = 4), cspace := cs }
  | .endmark => { s with host := [], phase := .fin, err := .none, wptr := 14, outcap := 64 }

end Sys2Proof.Machine
end

