-- ==== Sys2Proof/Machine/Step.lean ====
section
/-! DEFINITION. One step of the machine, and the placing of an instruction for the host's check. -/

namespace Sys2Proof.Machine

/-- One step: the host's oldest pending action, or, with none pending, the block's step (40_sequencer.md R71; log entry
2). -/
def step (s : State) : Host.Outcome State Fault Refusal :=
  match s.host with
  | [] => blockStep s
  | e :: rest => hostAct e { s with host := rest }

/-- `s` changed so that the next step performs the operation that the table row's word stands for (log entries 9 and
10); `s` itself where the word stands for none. -/
def State.withFetchWord (s : State) (nbits w : Nat) : State :=
  match decodeTableWord nbits w with
  | some i => placeInstr i s
  | none => s

end Sys2Proof.Machine
end

