-- ==== Sys2Proof/Machine/Encode.lean ====
section
/-! DEFINITION. The whole encode as one function, the loop of 40_sequencer.md R82: a reading of the rules that has no
phases, no pointers and no steps, against which the step machine is held. -/

namespace Sys2Proof.Machine

/-- The inner loop of R82: `while run > 0: c <- min(run, 62); append a RUN chunk of c; run <- run - c`. The first
argument is fuel; every pass takes at least one pixel, so the run itself is enough. -/
def flushLoop : Nat → Nat → List Instr
  | 0, _ => []
  | fuel + 1, run =>
    if run = 0 then [] else .runemit (min run Config.runMax) :: flushLoop fuel (run - min run Config.runMax)

/-- The RUN chunks of a pending run (41_run.md R92). -/
def flushRun (run : Nat) : List Instr := flushLoop run run

/-- The variables of the loop of R82; `chunks` is the body before it is serialized. -/
structure Loop where
  prev : Pixel
  cache : Vector Pixel 64
  run : Nat
  aseen : Bool
  chunks : List Instr
  deriving DecidableEq, Repr

/-- The variables before the loop (40_sequencer.md R82). -/
def Loop.start : Loop where
  prev := seed
  cache := (Vector.replicate 64 Pixel.zero).set 53 seed
  run := 0
  aseen := false
  chunks := []

/-- One pass of the loop on a real pixel (40_sequencer.md R82). -/
def Loop.pixel (l : Loop) (px : Pixel) : Loop :=
  let aseen := l.aseen || decide (px.a.toNat < 255)
  if px = l.prev then { l with aseen := aseen, run := l.run + 1 }
  else
    { prev := px
      cache := l.cache.set (hashOf px).val px (hashOf px).isLt
      run := 0
      aseen := aseen
      chunks := l.chunks ++ flushRun l.run ++ [chunkFor l.cache l.prev px] }

/-- The pass at `i = n`: the sentinel flushes a pending run, or else emits the artifact (40_sequencer.md R79, R80). -/
def Loop.sentinel (l : Loop) : Loop :=
  if 0 < l.run then { l with run := 0, chunks := l.chunks ++ flushRun l.run }
  else
    { l with
      prev := Pixel.zero
      cache := l.cache.set (hashOf Pixel.zero).val Pixel.zero (hashOf Pixel.zero).isLt
      chunks := l.chunks ++ [chunkFor l.cache l.prev Pixel.zero] }

/-- The loop over the real pixels. -/
def scanPixels (pixels : List Pixel) : Loop := pixels.foldl Loop.pixel Loop.start

/-- The loop over the real pixels and the sentinel. -/
def scanImage (pixels : List Pixel) : Loop := (scanPixels pixels).sentinel

/-- `Encode(WIDTH, HEIGHT, CSPACE, IN)` (40_sequencer.md R82). -/
def encodeImage (w h : Word32) (cs : Byte) (pixels : List Pixel) : List Byte :=
  encode (.header w h (channelByte (scanImage pixels).aseen) cs)
    ++ (scanImage pixels).chunks.flatMap encode
    ++ encode .endmark

/-- `A`: 1 if the stream carries the sentinel artifact, else 0 (40_sequencer.md R81 item 4, R83). -/
def artifactCount (pixels : List Pixel) : Nat := if (scanPixels pixels).run = 0 then 1 else 0

/-- Is it a RUN chunk. -/
def isRunChunk : Instr → Bool
  | .runemit _ => true
  | .start => false
  | .runacc => false
  | .index _ => false
  | .diff _ _ _ => false
  | .luma _ _ _ => false
  | .rgb _ _ _ => false
  | .rgba _ _ _ _ => false
  | .header _ _ _ _ => false
  | .endmark => false

/-- `K`: the RUN chunks of the stream (40_sequencer.md R84). -/
def runChunkCount (pixels : List Pixel) : Nat := (scanImage pixels).chunks.countP isRunChunk

/-- The pixels a chunk stands for (30_encoding.md R51, last column). -/
def pixelsOf : Instr → Nat
  | .start => 0
  | .runacc => 0
  | .runemit count => count
  | .index _ => 1
  | .diff _ _ _ => 1
  | .luma _ _ _ => 1
  | .rgb _ _ _ => 1
  | .rgba _ _ _ _ => 1
  | .header _ _ _ _ => 0
  | .endmark => 0

/-- The bounded run form of 41_run.md R93 after some equal pixels: a count below 62, and the full chunks already
emitted. -/
def boundedRun : Nat → Nat × List Instr
  | 0 => (0, [])
  | n + 1 =>
    if (boundedRun n).1 + 1 = Config.runMax then (0, (boundedRun n).2 ++ [.runemit Config.runMax])
    else ((boundedRun n).1 + 1, (boundedRun n).2)

/-- The bounded form's chunks once the run is broken (41_run.md R93). -/
def boundedFlush (n : Nat) : List Instr :=
  (boundedRun n).2 ++ if 0 < (boundedRun n).1 then [.runemit (boundedRun n).1] else []

end Sys2Proof.Machine
end

