-- ==== Sys2Proof/Safety.lean ====
section
/-! DEFINITION. The terms that claims are stated in: the host's contract, what a run keeps true, and the shapes that
several operations share. -/

namespace Sys2Proof.Machine

/-- The host placed the image: all four bytes of every real pixel (20_memory.md R31, 70_reset_and_hazards.md R177 item
1; the premise of 93_implementation_defined.md U12). -/
def provided (s : State) : Prop := ∀ i < npix s, (s.inp.pixel i).isSome = true

/-- The image in IN, in scan order (20_memory.md R32). -/
def imageOf (s : State) : List Pixel := (List.range (npix s)).map fun i => (s.inp.pixel i).getD Pixel.zero

/-- The stream that the encode of a state's image and configuration must leave (40_sequencer.md R82). -/
def reference (s : State) : List Byte := encodeImage s.width s.height s.cspace (imageOf s)

/-- The bytes from an offset on. -/
def holds (m : Memory) (a : Nat) (bytes : List Byte) : Prop :=
  ∀ (j : Nat) (v : Byte), bytes[j]? = some v → m.read (a + j) = some v

/-- The `n` bytes from `a` on are the only ones that may differ. -/
def sameOutside (m m' : Memory) (a n : Nat) : Prop :=
  ∀ x, (x < a ∨ a + n ≤ x) → m'.read x = m.read x

/-- The configuration registers, IN and the host's plans: what no operation writes. -/
def sameSurroundings (s t : State) : Prop :=
  t.width = s.width ∧ t.height = s.height ∧ t.cspace = s.cspace ∧ t.outcap = s.outcap ∧ t.inp = s.inp ∧ t.host = s.host

/-- Tests 1 and 2 of the decision tree fail on the pixel under evaluation (40_sequencer.md R75): a scan step, no run
continuation, no run pending. -/
def reachesChunkTests (px : Pixel) (s : State) : Prop :=
  s.phase = .scan ∧ cur s = some px ∧ (sentinel s = true ∨ px ≠ s.prev) ∧ s.run = 0

/-- Test 3 fails, the alpha gate is open (40_sequencer.md R75, 43_delta.md R111). -/
def reachesDeltaTests (px : Pixel) (s : State) : Prop :=
  reachesChunkTests px s ∧ s.cache.get (hashOf px) ≠ px ∧ px.a = s.prev.a

/-- The deltas lie in the DIFF range (43_delta.md R112). -/
def inDiffRange (dr dg db : Int) : Prop :=
  (-2 ≤ dr ∧ dr ≤ 1) ∧ (-2 ≤ dg ∧ dg ≤ 1) ∧ (-2 ≤ db ∧ db ≤ 1)

/-- The deltas lie in the LUMA range (43_delta.md R113). -/
def inLumaRange (dr dg db : Int) : Prop :=
  (-32 ≤ dg ∧ dg ≤ 31) ∧ (-8 ≤ dr - dg ∧ dr - dg ≤ 7) ∧ (-8 ≤ db - dg ∧ db - dg ≤ 7)

/-- What every chunk operation leaves of a pixel beside the `n` bytes it stored: WPTR past them, Commit (40_sequencer.md
R77), Next (R78), the ASEEN note of the step (10_state.md R16), and nothing else changed. -/
def consumed (n : Nat) (px : Pixel) (s t : State) : Prop :=
  sameSurroundings s t
    ∧ sameOutside s.out t.out s.wptr.toNat n
    ∧ t.run = s.run
    ∧ t.err = s.err
    ∧ t.wptr.toNat = s.wptr.toNat + n
    ∧ t.prev = px
    ∧ t.cache.get (hashOf px) = px
    ∧ (∀ k, k ≠ hashOf px → t.cache.get k = s.cache.get k)
    ∧ (sentinel s = true → t.phase = .hdr ∧ t.pos = s.pos ∧ t.aseen = s.aseen)
    ∧ (sentinel s = false → t.phase = .scan ∧ t.pos = s.pos + 1 ∧ t.aseen = (s.aseen || decide (px.a.toNat < 255)))

/-- The five operations that stand for one pixel and commit it (40_sequencer.md R77). -/
def isPixelChunk : Instr → Bool
  | .index _ => true
  | .diff _ _ _ => true
  | .luma _ _ _ => true
  | .rgb _ _ _ => true
  | .rgba _ _ _ _ => true
  | .start => false
  | .runacc => false
  | .runemit _ => false
  | .header _ _ _ _ => false
  | .endmark => false

/-- What every step keeps true, of any state and whatever the host does. -/
structure Inv (s : State) : Prop where
  /-- IN and OUT are in canonical form. -/
  inWf : s.inp.wf
  outWf : s.out.wf
  /-- ERR is not 0 if and only if PHASE is ERROR, and then it is ALLOC (10_state.md R17, 60_exceptions.md R154). -/
  errCode : s.err = if s.phase = .error then .alloc else .none
  /-- No counter passes its bound (10_state.md R22). -/
  bounds : busy s = true →
    s.pos.toNat ≤ npix s ∧ s.run.toNat ≤ s.pos.toNat ∧ 14 ≤ s.wptr.toNat ∧ s.wptr.toNat ≤ s.outcap.toNat
  /-- The previous pixel is in its slot (42_index.md R103). -/
  prevCached : busy s = true → s.cache.get (hashOf s.prev) = s.prev
  /-- A slot holds its initial zero or a pixel that hashes to it (40_sequencer.md R81 item 5). -/
  slots : busy s = true → ∀ k, hashOf (s.cache.get k) = k ∨ s.cache.get k = Pixel.zero
  /-- The pending run is made of the pixels before POS, all of the colour of PREV (40_sequencer.md R81 item 3). -/
  pendingRun : busy s = true → ∀ j, s.pos.toNat - s.run.toNat ≤ j → j < s.pos.toNat → s.inp.pixel j = some s.prev
  /-- After the scan every position was consumed and no run is pending (40_sequencer.md R78, R79). -/
  scanOver : s.phase = .hdr ∨ s.phase = .fin → s.pos.toNat = npix s ∧ s.run = 0
  /-- The chunk stream has no hole. -/
  chunksWritten : busy s = true → ∀ a, 14 ≤ a → a < s.wptr.toNat → (s.out.read a).isSome = true
  /-- The header is there once it was written. -/
  headerWritten : s.phase = .fin → ∀ a < 14, (s.out.read a).isSome = true
  /-- In DONE every byte of the stream has a value (45_framing.md R140). -/
  doneWritten : s.phase = .done → 22 ≤ s.wptr.toNat ∧ ∀ a < s.wptr.toNat, (s.out.read a).isSome = true

end Sys2Proof.Machine
end

