-- ==== Sys2Proof/Certificates/Slice0/Obligations.lean ====
section
/-! DEFINITION. The statements about the model, for the provers. Each docstring names the rule or section of spec/ that
the statement formalises; where a clause is the model's choice it names the log entry. -/

open Sys2Proof Sys2Proof.Machine

/-! ## Encodings -/

/-- Words written out from the formats of 30_encoding.md section 2 and from the worked bytes of 95_test_vectors.md stand
for the operations they are listed with (log entry 11: the decoder is the inverse of the formats). -/
def Obligations.WrittenWordsDecode : Prop :=
  decode .chunk [0b11000101] = .ok (.runemit 6, [])
    ∧ decode .chunk [0b00110101] = .ok (.index 53, [])
    ∧ decode .chunk [0b01011010] = .ok (.diff (-1) 0 0, [])
    ∧ decode .chunk [0b10100010, 0b01110110] = .ok (.luma 2 (-1) (-2), [])
    ∧ decode .chunk [0b11111110, 0b01101100, 0b01100100, 0b01100100] = .ok (.rgb 108 100 100, [])
    ∧ decode .chunk [0b11111111, 0b01100100, 0b01100100, 0b01100100, 0b11111110] = .ok (.rgba 100 100 100 254, [])
    ∧ decode .header [0x71, 0x6F, 0x69, 0x66, 1, 2, 3, 4, 0x0A, 0x0B, 0x0C, 0x0D, 4, 0]
        = .ok (.header 0x01020304 0x0A0B0C0D 4 0, [])
    ∧ decode .endMark [0, 0, 0, 0, 0, 0, 0, 1] = .ok (.endmark, [])

/-- 30_encoding.md section 2 and 3: for every operation that emits, with every operand its fields admit, reading back what
the serializer wrote gives the operation and leaves the bytes after it (log entry 11). START and RUNACC emit nothing. -/
def Obligations.EncodedOperationDecodesBack : Prop :=
  ∀ (i : Instr) (p : Part) (rest : List Byte),
    i.wellFormed = true → partOf i = some p → decode p (encode i ++ rest) = .ok (i, rest)

/-- 30_encoding.md sections 2 to 4: bytes that are read as an operation are exactly that operation's encoding, and its
operands are in range: each word has one meaning (log entry 11). -/
def Obligations.DecodedBytesAreTheEncoding : Prop :=
  ∀ (p : Part) (bytes rest : List Byte) (i : Instr),
    decode p bytes = .ok (i, rest) → partOf i = some p ∧ i.wellFormed = true ∧ bytes = encode i ++ rest

/-- 30_encoding.md section 4: the kind of a chunk by the value of its first byte, all 256 values; the bytes left over show
its length (log entry 11: the reading is the model's). -/
def Obligations.FirstByteDeterminesTheChunk : Prop :=
  ∀ (t x1 x2 x3 x4 : Byte) (rest : List Byte),
    (t.toNat ≤ 0x3F →
      ∃ k, decode .chunk (t :: x1 :: x2 :: x3 :: x4 :: rest) = .ok (.index k, x1 :: x2 :: x3 :: x4 :: rest))
    ∧ (0x40 ≤ t.toNat ∧ t.toNat ≤ 0x7F →
      ∃ dr dg db, decode .chunk (t :: x1 :: x2 :: x3 :: x4 :: rest) = .ok (.diff dr dg db, x1 :: x2 :: x3 :: x4 :: rest))
    ∧ (0x80 ≤ t.toNat ∧ t.toNat ≤ 0xBF →
      ∃ dg drg dbg, decode .chunk (t :: x1 :: x2 :: x3 :: x4 :: rest) = .ok (.luma dg drg dbg, x2 :: x3 :: x4 :: rest))
    ∧ (0xC0 ≤ t.toNat ∧ t.toNat ≤ 0xFD →
      ∃ count, decode .chunk (t :: x1 :: x2 :: x3 :: x4 :: rest) = .ok (.runemit count, x1 :: x2 :: x3 :: x4 :: rest))
    ∧ (t.toNat = 0xFE → decode .chunk (t :: x1 :: x2 :: x3 :: x4 :: rest) = .ok (.rgb x1 x2 x3, x4 :: rest))
    ∧ (t.toNat = 0xFF → decode .chunk (t :: x1 :: x2 :: x3 :: x4 :: rest) = .ok (.rgba x1 x2 x3 x4, rest))

/-! ## The decision tree -/

/-- 40_sequencer.md R75: each operation is selected exactly when its test holds and every earlier one fails, with the
operands its rule computes (41_run.md R90, R91; 42_index.md R102; 43_delta.md R112, R113; 44_literal.md R125, R126). -/
def Obligations.SelectIsTheDecisionTree : Prop :=
  ∀ (px : Pixel) (s : State),
    (select px s = .runacc ↔ sentinel s = false ∧ px = s.prev)
    ∧ (∀ count, select px s = .runemit count ↔
        (sentinel s = true ∨ px ≠ s.prev) ∧ 0 < s.run.toNat ∧ count = min s.run.toNat 62)
    ∧ (∀ slot, select px s = .index slot ↔
        (sentinel s = true ∨ px ≠ s.prev) ∧ s.run.toNat = 0 ∧ s.cache.get (hashOf px) = px ∧ slot = (hashOf px).val)
    ∧ (∀ dr dg db, select px s = .diff dr dg db ↔
        (sentinel s = true ∨ px ≠ s.prev) ∧ s.run.toNat = 0 ∧ s.cache.get (hashOf px) ≠ px ∧ px.a = s.prev.a
          ∧ dr = sdelta8 px.r s.prev.r ∧ dg = sdelta8 px.g s.prev.g ∧ db = sdelta8 px.b s.prev.b
          ∧ inDiffRange dr dg db)
    ∧ (∀ dg drg dbg, select px s = .luma dg drg dbg ↔
        (sentinel s = true ∨ px ≠ s.prev) ∧ s.run.toNat = 0 ∧ s.cache.get (hashOf px) ≠ px ∧ px.a = s.prev.a
          ∧ dg = sdelta8 px.g s.prev.g
          ∧ drg = sdelta8 px.r s.prev.r - sdelta8 px.g s.prev.g
          ∧ dbg = sdelta8 px.b s.prev.b - sdelta8 px.g s.prev.g
          ∧ ¬ inDiffRange (sdelta8 px.r s.prev.r) (sdelta8 px.g s.prev.g) (sdelta8 px.b s.prev.b)
          ∧ inLumaRange (sdelta8 px.r s.prev.r) (sdelta8 px.g s.prev.g) (sdelta8 px.b s.prev.b))
    ∧ (∀ r g b, select px s = .rgb r g b ↔
        (sentinel s = true ∨ px ≠ s.prev) ∧ s.run.toNat = 0 ∧ s.cache.get (hashOf px) ≠ px ∧ px.a = s.prev.a
          ∧ r = px.r ∧ g = px.g ∧ b = px.b
          ∧ ¬ inDiffRange (sdelta8 px.r s.prev.r) (sdelta8 px.g s.prev.g) (sdelta8 px.b s.prev.b)
          ∧ ¬ inLumaRange (sdelta8 px.r s.prev.r) (sdelta8 px.g s.prev.g) (sdelta8 px.b s.prev.b))
    ∧ (∀ r g b a, select px s = .rgba r g b a ↔
        (sentinel s = true ∨ px ≠ s.prev) ∧ s.run.toNat = 0 ∧ s.cache.get (hashOf px) ≠ px ∧ px.a ≠ s.prev.a
          ∧ r = px.r ∧ g = px.g ∧ b = px.b ∧ a = px.a)

/-- 30_encoding.md section 3: the operation a block performs has every operand within its field, because it is selected
only when its range test passed. -/
def Obligations.PerformedOperandsFitTheirFields : Prop :=
  ∀ (s : State) (i : Instr), current s = some i → i.wellFormed = true

/-- 43_delta.md section 1: the wrapped 8-bit difference, read as signed (the signed reading is an inference the spec
marks as its own, 91_not_in_source.md N5). -/
def Obligations.DeltaIsTheWrappedSignedDifference : Prop :=
  ∀ x y : Byte,
    sdelta8 x y = (if 128 ≤ ((x.toNat : Int) - y.toNat) % 256 then ((x.toNat : Int) - y.toNat) % 256 - 256
      else ((x.toNat : Int) - y.toNat) % 256)

/-- 43_delta.md section 4 (derived there): computing `dr - dg` in 8 bits with wraparound decides the LUMA test alike. -/
def Obligations.WrappedLumaDifferenceDecidesAlike : Prop :=
  ∀ x y u v : Byte, -32 ≤ sdelta8 u v → sdelta8 u v ≤ 31 →
    ((-8 ≤ sdelta8 x y - sdelta8 u v ∧ sdelta8 x y - sdelta8 u v ≤ 7) ↔
      (-8 ≤ (BitVec.ofInt 8 (sdelta8 x y - sdelta8 u v)).toInt ∧ (BitVec.ofInt 8 (sdelta8 x y - sdelta8 u v)).toInt ≤ 7))

/-- 42_index.md, the hash (the width argument is derived there): the sum taken in any unsigned width of 6 bits or more,
with wraparound, has the same low 6 bits. -/
def Obligations.HashIgnoresTheSumWidth : Prop :=
  ∀ (n : Nat) (p : Pixel), 6 ≤ n →
    (BitVec.ofNat n 3 * BitVec.ofNat n p.r.toNat + BitVec.ofNat n 5 * BitVec.ofNat n p.g.toNat
      + BitVec.ofNat n 7 * BitVec.ofNat n p.b.toNat + BitVec.ofNat n 11 * BitVec.ofNat n p.a.toNat).toNat % 64
      = (hashOf p).val

/-! ## The operations: results, completion, faults -/

/-- 40_sequencer.md section 2: with no host action pending, or at the host's `yield`, a step is `exec` of the one
operation that the phase and the decision tree choose; in IDLE, DONE and ERROR nothing changes (that the model's step
answers the same state where the block has no step is its choice, log entry 2). -/
def Obligations.StepRunsTheSelectedOperation : Prop :=
  ∀ (s u : State), ((s.host = [] ∧ u = s) ∨ ∃ rest, s.host = .yield :: rest ∧ u = { s with host := rest }) →
    (∀ px, s.phase = .scan → cur s = some px → step s = exec (select px s) u)
    ∧ (s.phase = .hdr → step s = exec (.header s.width s.height (if s.aseen then 4 else 3) s.cspace) u)
    ∧ (s.phase = .fin → step s = exec .endmark u)
    ∧ (s.phase = .idle ∨ s.phase = .done ∨ s.phase = .error → step s = .next u)

/-- 40_sequencer.md R70, 10_state.md R26: START on a block that is not BUSY, from whatever state, as the operation and as
the host's write of CTRL. -/
def Obligations.StartGivesTheInitialState : Prop :=
  ∀ s : State, busy s = false →
    ∃ t, exec .start s = .next t
      ∧ (∀ v : Word64, v.extractLsb' 0 1 = 1#1 → writeCsr .ctrl v s = .next t)
      ∧ t.prev = ⟨0, 0, 0, 255⟩
      ∧ (∀ k, k ≠ 53 → t.cache.get k = ⟨0, 0, 0, 0⟩)
      ∧ t.cache.get 53 = ⟨0, 0, 0, 255⟩
      ∧ t.run = 0 ∧ t.pos = 0 ∧ t.aseen = false ∧ t.wptr = 14
      ∧ (14 ≤ s.outcap.toNat → t.phase = .scan ∧ t.err = .none)
      ∧ (s.outcap.toNat < 14 → t.phase = .error ∧ t.err = .alloc)
      ∧ t.out = s.out ∧ sameSurroundings s t

/-- 41_run.md R90: a real pixel equal to PREV extends the run; nothing is emitted and nothing else is written but ASEEN by
the step's prologue. It cannot fault. -/
def Obligations.RunaccFoldsThePixel : Prop :=
  ∀ (s : State) (px : Pixel), s.phase = .scan → s.pos.toNat < npix s → cur s = some px → px = s.prev →
    exec .runacc s = .next { s with
      run := s.run + 1, pos := s.pos + 1, aseen := s.aseen || decide (px.a.toNat < 255) }

/-- 41_run.md R91: one RUN chunk of `min(RUN, 62)` pixels, POS held, and the end of the scan when the run is empty at the
sentinel; ALLOC when the byte does not fit. -/
def Obligations.RunemitWritesOneRunChunk : Prop :=
  ∀ (s : State) (px : Pixel) (count : Nat), s.phase = .scan → cur s = some px → (sentinel s = true ∨ px ≠ s.prev) →
    0 < s.run.toNat → count = min s.run.toNat 62 →
    (s.wptr.toNat + 1 ≤ s.outcap.toNat →
      ∃ t, exec (.runemit count) s = .next t
        ∧ holds t.out s.wptr.toNat [BitVec.ofNat 8 (0xC0 + (count - 1))]
        ∧ sameOutside s.out t.out s.wptr.toNat 1 ∧ sameSurroundings s t
        ∧ t.wptr.toNat = s.wptr.toNat + 1
        ∧ t.run.toNat = s.run.toNat - count
        ∧ t.phase = (if s.run.toNat = count ∧ s.pos.toNat = npix s then .hdr else .scan)
        ∧ t.pos = s.pos ∧ t.prev = s.prev ∧ t.cache = s.cache ∧ t.err = s.err
        ∧ t.aseen = (s.aseen || (!sentinel s && decide (px.a.toNat < 255))))
    ∧ (s.outcap.toNat < s.wptr.toNat + 1 →
      exec (.runemit count) s = .next { s with err := .alloc, phase := .error })

/-- 42_index.md R102: one byte, the slot number; ALLOC when it does not fit. -/
def Obligations.IndexWritesTheSlot : Prop :=
  ∀ (s : State) (px : Pixel), reachesChunkTests px s → s.cache.get (hashOf px) = px →
    (s.wptr.toNat + 1 ≤ s.outcap.toNat →
      ∃ t, exec (.index (hashOf px)) s = .next t
        ∧ holds t.out s.wptr.toNat [BitVec.ofNat 8 (hashOf px).val]
        ∧ consumed 1 px s t ∧ t.cache = s.cache)
    ∧ (s.outcap.toNat < s.wptr.toNat + 1 →
      exec (.index (hashOf px)) s = .next { s with err := .alloc, phase := .error })

/-- 43_delta.md R112: one byte `0x40 + 16*(dr+2) + 4*(dg+2) + (db+2)`; ALLOC when it does not fit. -/
def Obligations.DiffWritesOneByte : Prop :=
  ∀ (s : State) (px : Pixel) (dr dg db : Int), reachesDeltaTests px s →
    dr = sdelta8 px.r s.prev.r → dg = sdelta8 px.g s.prev.g → db = sdelta8 px.b s.prev.b → inDiffRange dr dg db →
    (s.wptr.toNat + 1 ≤ s.outcap.toNat →
      ∃ t, exec (.diff dr dg db) s = .next t
        ∧ holds t.out s.wptr.toNat [BitVec.ofInt 8 (0x40 + 16 * (dr + 2) + 4 * (dg + 2) + (db + 2))]
        ∧ consumed 1 px s t)
    ∧ (s.outcap.toNat < s.wptr.toNat + 1 →
      exec (.diff dr dg db) s = .next { s with err := .alloc, phase := .error })

/-- 43_delta.md R113: two bytes `0x80 + (dg+32)`, `16*(dr-dg+8) + (db-dg+8)`; ALLOC, and neither byte, when they do not
fit. -/
def Obligations.LumaWritesTwoBytes : Prop :=
  ∀ (s : State) (px : Pixel) (dr dg db : Int), reachesDeltaTests px s →
    dr = sdelta8 px.r s.prev.r → dg = sdelta8 px.g s.prev.g → db = sdelta8 px.b s.prev.b →
    ¬ inDiffRange dr dg db → inLumaRange dr dg db →
    (s.wptr.toNat + 2 ≤ s.outcap.toNat →
      ∃ t, exec (.luma dg (dr - dg) (db - dg)) s = .next t
        ∧ holds t.out s.wptr.toNat
            [BitVec.ofInt 8 (0x80 + (dg + 32)), BitVec.ofInt 8 (16 * (dr - dg + 8) + (db - dg + 8))]
        ∧ consumed 2 px s t)
    ∧ (s.outcap.toNat < s.wptr.toNat + 2 →
      exec (.luma dg (dr - dg) (db - dg)) s = .next { s with err := .alloc, phase := .error })

/-- 44_literal.md R125: the tag `0xFE` and the pixel's own red, green, blue; ALLOC, and none of the bytes, when they do
not fit. -/
def Obligations.RgbWritesFourBytes : Prop :=
  ∀ (s : State) (px : Pixel) (dr dg db : Int), reachesDeltaTests px s →
    dr = sdelta8 px.r s.prev.r → dg = sdelta8 px.g s.prev.g → db = sdelta8 px.b s.prev.b →
    ¬ inDiffRange dr dg db → ¬ inLumaRange dr dg db →
    (s.wptr.toNat + 4 ≤ s.outcap.toNat →
      ∃ t, exec (.rgb px.r px.g px.b) s = .next t
        ∧ holds t.out s.wptr.toNat [0xFE, px.r, px.g, px.b]
        ∧ consumed 4 px s t)
    ∧ (s.outcap.toNat < s.wptr.toNat + 4 →
      exec (.rgb px.r px.g px.b) s = .next { s with err := .alloc, phase := .error })

/-- 44_literal.md R126: the tag `0xFF` and all four channels, on the alpha alone; ALLOC, and none of the bytes, when they
do not fit. -/
def Obligations.RgbaWritesFiveBytes : Prop :=
  ∀ (s : State) (px : Pixel), reachesChunkTests px s → s.cache.get (hashOf px) ≠ px → px.a ≠ s.prev.a →
    (s.wptr.toNat + 5 ≤ s.outcap.toNat →
      ∃ t, exec (.rgba px.r px.g px.b px.a) s = .next t
        ∧ holds t.out s.wptr.toNat [0xFF, px.r, px.g, px.b, px.a]
        ∧ consumed 5 px s t)
    ∧ (s.outcap.toNat < s.wptr.toNat + 5 →
      exec (.rgba px.r px.g px.b px.a) s = .next { s with err := .alloc, phase := .error })

/-- 45_framing.md R135, R137, R138: the 14 header bytes at offsets 0 to 13, width and height most significant byte first,
CSPACE unchanged; WPTR stays, and it cannot fault. -/
def Obligations.HeaderIsWrittenAtOffsetZero : Prop :=
  ∀ s : State, s.phase = .hdr →
    ∃ m, exec (.header s.width s.height (if s.aseen then 4 else 3) s.cspace) s
          = .next { s with out := m, phase := .fin }
      ∧ holds m 0
          [0x71, 0x6F, 0x69, 0x66,
           BitVec.ofNat 8 (s.width.toNat / 2 ^ 24), BitVec.ofNat 8 (s.width.toNat / 2 ^ 16),
           BitVec.ofNat 8 (s.width.toNat / 2 ^ 8), BitVec.ofNat 8 s.width.toNat,
           BitVec.ofNat 8 (s.height.toNat / 2 ^ 24), BitVec.ofNat 8 (s.height.toNat / 2 ^ 16),
           BitVec.ofNat 8 (s.height.toNat / 2 ^ 8), BitVec.ofNat 8 s.height.toNat,
           if s.aseen then 4 else 3, s.cspace]
      ∧ sameOutside s.out m 0 14

/-- 45_framing.md R139: the 8 bytes of the end marker at WPTR, then DONE; ALLOC, and no byte, when they do not fit. -/
def Obligations.EndmarkFinishesTheStream : Prop :=
  ∀ s : State, s.phase = .fin →
    (s.wptr.toNat + 8 ≤ s.outcap.toNat →
      ∃ m, exec .endmark s = .next { s with out := m, wptr := s.wptr + 8, phase := .done }
        ∧ holds m s.wptr.toNat [0, 0, 0, 0, 0, 0, 0, 1]
        ∧ sameOutside s.out m s.wptr.toNat 8)
    ∧ (s.outcap.toNat < s.wptr.toNat + 8 → exec .endmark s = .next { s with err := .alloc, phase := .error })

/-- 41_run.md R92: a pending run of length `N` that is broken, by a real pixel or by the sentinel, is emitted in
`ceil(N/62)` steps of one RUN chunk each, all of length 62 but the last; POS, PREV and CACHE do not move, and at the
sentinel the scan is over. -/
def Obligations.BrokenRunIsSplitIntoFullChunks : Prop :=
  ∀ (s : State) (px : Pixel) (n q m : Nat), s.host = [] → s.phase = .scan → cur s = some px →
    (sentinel s = true ∨ px ≠ s.prev) → n = s.run.toNat → 1 ≤ n → n = 62 * q + m → m < 62 →
    s.wptr.toNat + (n + 61) / 62 ≤ s.outcap.toNat →
    ∃ t : State, Host.Core.run core ((n + 61) / 62) s = .next t
      ∧ holds t.out s.wptr.toNat (List.replicate q 0xFD ++ if 0 < m then [BitVec.ofNat 8 (0xC0 + (m - 1))] else [])
      ∧ sameOutside s.out t.out s.wptr.toNat ((n + 61) / 62)
      ∧ t.wptr.toNat = s.wptr.toNat + (n + 61) / 62
      ∧ t.run = 0 ∧ t.pos = s.pos ∧ t.prev = s.prev ∧ t.cache = s.cache
      ∧ t.phase = (if sentinel s then .hdr else .scan)

/-- 41_run.md, the bounded form (derived there): emitting `FD` as soon as a count reaches 62 gives the same chunks. -/
def Obligations.BoundedRunFormEmitsTheSameChunks : Prop :=
  ∀ n : Nat, boundedFlush n = flushRun n

/-- 40_sequencer.md section 5: at the sentinel with no run pending exactly one chunk is emitted, `INDEX 0` exactly when
slot 0 holds the zero pixel; it commits the zero pixel and ends the scan. -/
def Obligations.SentinelArtifactEndsTheScan : Prop :=
  ∀ s : State, s.phase = .scan → sentinel s = true → s.run = 0 →
    ∃ i, current s = some i ∧ isPixelChunk i = true
      ∧ (i = .index 0 ↔ s.cache.get 0 = Pixel.zero)
      ∧ (s.wptr.toNat + (encode i).length ≤ s.outcap.toNat →
          ∃ t, exec i s = .next t ∧ t.phase = .hdr ∧ t.pos = s.pos ∧ t.aseen = s.aseen
            ∧ t.prev = Pixel.zero ∧ t.cache.get 0 = Pixel.zero)

/-! ## Frames -/

/-- 40_sequencer.md section 1 and 41_run.md: START and RUNACC store nothing; neither writes a configuration register or
IN, and RUNACC writes RUN, POS and ASEEN only. -/
def Obligations.NonStoringFrame : Prop :=
  (∀ s t : State, exec .start s = .next t → sameSurroundings s t ∧ ∀ a, t.out.read a = s.out.read a)
  ∧ (∀ s t : State, exec .runacc s = .next t →
      sameSurroundings s t ∧ (∀ a, t.out.read a = s.out.read a)
        ∧ t.prev = s.prev ∧ t.cache = s.cache ∧ t.wptr = s.wptr ∧ t.err = s.err ∧ t.phase = s.phase)

/-- 42_index.md, 43_delta.md, 44_literal.md: INDEX, DIFF, LUMA, RGB and RGBA store their bytes at WPTR and change no other
byte of OUT, no other cache slot, not RUN, and ERR only by the fault, which changes nothing but ERR and PHASE. -/
def Obligations.PixelChunkFrame : Prop :=
  ∀ (i : Instr) (s t : State), isPixelChunk i = true → exec i s = .next t →
    sameSurroundings s t ∧ t.run = s.run
      ∧ sameOutside s.out t.out s.wptr.toNat (encode i).length
      ∧ (∀ px, cur s = some px → ∀ k, k ≠ hashOf px → t.cache.get k = s.cache.get k)
      ∧ (t.err = s.err ∨ t = { s with err := .alloc, phase := .error })

/-- 41_run.md: RUNEMIT stores one byte at WPTR and changes no other byte of OUT, not POS, PREV or CACHE, and ERR only by
the fault, which changes nothing but ERR and PHASE. -/
def Obligations.RunemitFrame : Prop :=
  ∀ (count : Nat) (s t : State), exec (.runemit count) s = .next t →
    sameSurroundings s t ∧ t.pos = s.pos ∧ t.prev = s.prev ∧ t.cache = s.cache
      ∧ sameOutside s.out t.out s.wptr.toNat (encode (.runemit count)).length
      ∧ (t.err = s.err ∨ t = { s with err := .alloc, phase := .error })

/-- 45_framing.md: HEADER changes OUT bytes 0 to 13 and PHASE only; ENDMARK changes its eight bytes at WPTR, WPTR, PHASE,
and ERR only by the fault. -/
def Obligations.FramingFrame : Prop :=
  (∀ (w h : Word32) (c cs : Byte) (s t : State), exec (.header w h c cs) s = .next t →
      sameOutside s.out t.out 0 (encode (.header w h c cs)).length
        ∧ t = { s with out := t.out, phase := t.phase })
  ∧ (∀ s t : State, exec .endmark s = .next t →
      sameOutside s.out t.out s.wptr.toNat (encode .endmark).length
        ∧ (t = { s with out := t.out, wptr := t.wptr, phase := t.phase }
            ∨ t = { s with err := .alloc, phase := .error }))

/-! ## Faults and stops -/

/-- 60_exceptions.md R151: ALLOC is raised by START with OUTCAP below 14 and by an Emit that does not fit, and by nothing
else; entering ERROR sets ERR to 1. -/
def Obligations.AllocIsRaisedExactlyWhenBytesDoNotFit : Prop :=
  ∀ (i : Instr) (s t : State), exec i s = .next t → s.phase ≠ .error →
    (t.phase = .error ↔
      (i = .start ∧ busy s = false ∧ s.outcap.toNat < 14)
      ∨ ((isPixelChunk i = true ∨ isRunChunk i = true ∨ i = .endmark)
          ∧ s.outcap.toNat < s.wptr.toNat + (encode i).length))
    ∧ (t.phase = .error → t.err = .alloc)

/-- 60_exceptions.md R156: a faulting step writes ERR and PHASE and nothing else; in ERROR the registers read as stated,
the host may conclude nothing from OUT, and the block takes no step. A faulting START has made its initialising writes
first. -/
def Obligations.FaultEntryIsPrecise : Prop :=
  ∀ s t : State,
    ((∃ i, current s = some i ∧ (∀ w h c cs, i ≠ .header w h c cs) ∧ i ≠ .runacc
        ∧ s.outcap.toNat < s.wptr.toNat + (encode i).length ∧ exec i s = .next t) →
      t = { s with err := .alloc, phase := .error })
    ∧ (busy s = false → s.outcap.toNat < 14 → exec .start s = .next t →
      t = { initEncode s with err := .alloc, phase := .error })
    ∧ (t.phase = .error → t.err = .alloc →
      readCsr .status t = 0x15 ∧ readCsr .outlen t = 0 ∧ readCsr .channels t = 0
        ∧ (∀ a, hostOut t a = none) ∧ current t = none ∧ busy t = false)

/-- 60_exceptions.md R154: no transition of the machine produces `ERR = 2`. -/
def Obligations.IoErrorIsNeverSet : Prop :=
  ∀ s t : State, step s = .next t → t.err = .io → s.err = .io

/-- 60_exceptions.md section 2, 45_framing.md, 10_state.md section 3: only START and reset leave IDLE, DONE or ERROR. -/
def Obligations.OnlyStartOrResetLeavesRest : Prop :=
  ∀ s t : State, busy s = false → step s = .next t → t.phase ≠ s.phase →
    ∃ rest, s.host = .reset :: rest ∨ ∃ v, v.extractLsb' 0 1 = 1#1 ∧ s.host = .write .ctrl v :: rest

/-- 40_sequencer.md section 2, 30_encoding.md section 5: asked for an operation that the block does not perform in a state,
`exec` refuses by name, and by another name where the pixel was not provided. The refusals are the model's choice (log
entries 4 and 8). -/
def Obligations.UnselectedOperationIsRefused : Prop :=
  ∀ (i : Instr) (s : State), i ≠ .start → current s ≠ some i →
    ((s.phase = .scan ∧ cur s = none ∧ (isPixelChunk i = true ∨ isRunChunk i = true ∨ i = .runacc)) →
        exec i s = .refused .inputMissing)
    ∧ (¬ (s.phase = .scan ∧ cur s = none ∧ (isPixelChunk i = true ∨ isRunChunk i = true ∨ i = .runacc)) →
        exec i s = .refused .notSelected)

/-- 60_exceptions.md R155, 40_sequencer.md R76 (what they say of a block whose host keeps its contract): a step with no
host action pending always answers a next state when the image was provided; the only stops a step can show are a
missing pixel and a host access to memory (log entries 4, 6 and 14). -/
def Obligations.StepStopsOnlyOnABrokenContract : Prop :=
  ∀ s : State,
    (s.host = [] → provided s → ∃ t, step s = .next t)
    ∧ (∀ r, step s = .refused r → r = .inputMissing ∧ s.phase = .scan ∧ s.inp.pixel s.pos.toNat = none)
    ∧ (∀ f, step s = .fault f → ∃ a v rest, s.host = .placeIn a v :: rest ∨ s.host = .placeOut a v :: rest)

/-! ## Host interface and reset -/

/-- 10_state.md R21: CTRL.START is START when the block is not BUSY and is ignored otherwise, writing 0 does nothing, CTRL
reads 0; the fields of STATUS. -/
def Obligations.CtrlAndStatusFields : Prop :=
  ∀ (s : State) (v : Word64),
    readCsr .ctrl s = 0
    ∧ (v.extractLsb' 0 1 = 1#1 → busy s = false → writeCsr .ctrl v s = .next (startState s))
    ∧ (v.extractLsb' 0 1 = 1#1 → busy s = true → writeCsr .ctrl v s = .next s)
    ∧ (v.extractLsb' 0 1 = 0#1 → writeCsr .ctrl v s = .next s)
    ∧ (readCsr .status s).extractLsb' 0 3 = s.phase.code
    ∧ ((readCsr .status s).extractLsb' 3 1 = 1#1 ↔ s.phase = .scan ∨ s.phase = .hdr ∨ s.phase = .fin)
    ∧ (readCsr .status s).extractLsb' 4 2 = s.err.code
    ∧ (readCsr .status s).extractLsb' 6 58 = 0

/-- 10_state.md R20, R21, R23, 92_eei_decisions.md D13: while BUSY a write to any control register has no effect at all.
At rest the four configuration registers take every value that the host writes, and a write to STATUS, OUTLEN, CHANNELS,
or to CTRL with bit 0 clear, changes nothing (the read-only three: log entry 7). A configuration register changes in no
step but a reset and, at rest, a write to that register. -/
def Obligations.ConfigurationChangesOnlyAtRest : Prop :=
  (∀ (s : State) (r : Csr) (v : Word64), busy s = true → writeCsr r v s = .next s)
  ∧ (∀ (s : State) (w : Word32) (c : Byte) (n v : Word64), busy s = false →
      writeCsr .width (w.setWidth 64) s = .next { s with width := w }
      ∧ writeCsr .height (w.setWidth 64) s = .next { s with height := w }
      ∧ writeCsr .cspace (c.setWidth 64) s = .next { s with cspace := c }
      ∧ writeCsr .outcap n s = .next { s with outcap := n }
      ∧ writeCsr .status v s = .next s
      ∧ writeCsr .outlen v s = .next s
      ∧ writeCsr .channels v s = .next s
      ∧ (v.extractLsb' 0 1 = 0#1 → writeCsr .ctrl v s = .next s))
  ∧ (∀ s t : State, step s = .next t → (∀ rest, s.host ≠ .reset :: rest) →
      ((busy s = true ∨ ∀ v rest, s.host ≠ .write .width v :: rest) → t.width = s.width)
      ∧ ((busy s = true ∨ ∀ v rest, s.host ≠ .write .height v :: rest) → t.height = s.height)
      ∧ ((busy s = true ∨ ∀ v rest, s.host ≠ .write .cspace v :: rest) → t.cspace = s.cspace)
      ∧ ((busy s = true ∨ ∀ v rest, s.host ≠ .write .outcap v :: rest) → t.outcap = s.outcap))

/-- 10_state.md R24: OUTLEN and CHANNELS show WPTR and `3 + ASEEN` in DONE and 0 in every other phase; R20: the plain
registers read as stored. -/
def Obligations.ResultRegistersReadInDone : Prop :=
  ∀ s : State,
    (s.phase = .done → readCsr .outlen s = s.wptr ∧ readCsr .channels s = if s.aseen then 4 else 3)
    ∧ (s.phase ≠ .done → readCsr .outlen s = 0 ∧ readCsr .channels s = 0)
    ∧ (readCsr .width s).toNat = s.width.toNat ∧ (readCsr .height s).toNat = s.height.toNat
    ∧ (readCsr .cspace s).toNat = s.cspace.toNat ∧ readCsr .outcap s = s.outcap

/-- 70_reset_and_hazards.md R176, 10_state.md R27: a reset, while BUSY too, gives the values the spec states for reset,
leaves OUT as it was, and reports no DONE (that the host's further actions stay is log entry 3). -/
def Obligations.ResetAbandonsTheEncode : Prop :=
  ∀ (s : State) (rest : List HostEvent), s.host = .reset :: rest →
    ∃ t, step s = .next t ∧ t.phase = .idle ∧ t.err = .none
      ∧ t.width = 0 ∧ t.height = 0 ∧ t.cspace = 0 ∧ t.outcap = 0
      ∧ readCsr .ctrl t = 0 ∧ readCsr .status t = 0 ∧ readCsr .outlen t = 0 ∧ readCsr .channels t = 0
      ∧ t.out = s.out ∧ t.host = rest

/-- 20_memory.md section 7 (decision D14 of the spec): while BUSY a host write to IN or OUT is a race, which the model
answers with a fault (log entry 6), and the host may conclude nothing from OUT; at rest the host's byte is stored and no
other changes. -/
def Obligations.HostMemoryAccessOwnership : Prop :=
  ∀ (s : State) (a : Nat) (v : Byte) (rest : List HostEvent),
    (busy s = true → s.host = .placeIn a v :: rest ∨ s.host = .placeOut a v :: rest → step s = .fault .hostRace)
    ∧ (busy s = true → ∀ x, hostOut s x = none)
    ∧ (busy s = false → a < 2 ^ 66 → s.host = .placeIn a v :: rest →
        ∃ m, step s = .next { s with inp := m, host := rest } ∧ m.read a = some v
          ∧ ∀ x, x ≠ a → m.read x = s.inp.read x)
    ∧ (busy s = false → a < 2 ^ 64 → s.host = .placeOut a v :: rest →
        ∃ m, step s = .next { s with out := m, host := rest } ∧ m.read a = some v
          ∧ ∀ x, x ≠ a → m.read x = s.out.read x)

/-- The state right after reset has the values that 10_state.md R27 states (the datapath registers, which it leaves
unspecified, are not mentioned). -/
def Obligations.ResetStateHasTheStatedValues : Prop :=
  State.reset.phase = .idle ∧ State.reset.err = .none
    ∧ State.reset.width = 0 ∧ State.reset.height = 0 ∧ State.reset.cspace = 0 ∧ State.reset.outcap = 0
    ∧ readCsr .ctrl State.reset = 0 ∧ readCsr .status State.reset = 0
    ∧ readCsr .outlen State.reset = 0 ∧ readCsr .channels State.reset = 0

/-! ## Invariants and whole-machine rules -/

/-- The invariant `Inv` holds of the state right after reset. -/
def Obligations.ResetMeetsTheInvariant : Prop := Inv State.reset

/-- Every step keeps `Inv`, whatever the host does: canonical memory, ERR against PHASE (10_state.md section 4), counter
bounds (section 7), slot contents and pending run (40_sequencer.md section 5), CACHE[hash(PREV)] = PREV (42_index.md),
no hole in the stream (45_framing.md). The spec marks most of these as its own inferences. -/
def Obligations.StepKeepsTheInvariant : Prop :=
  ∀ s t : State, Inv s → step s = .next t → Inv t

/-- 10_state.md R16: the block's step sets ASEEN exactly on a real pixel with alpha below 255, in a step that does not
fault; it never clears it; START clears it. -/
def Obligations.AlphaSeenFollowsRealPixels : Prop :=
  (∀ s t : State, exec .start s = .next t → busy s = false → t.aseen = false)
  ∧ (∀ s t : State, s.host = [] → busy s = true → s.pos.toNat ≤ npix s → step s = .next t →
      (t.aseen = true ↔ s.aseen = true
        ∨ (s.phase = .scan ∧ s.pos.toNat < npix s ∧ t.phase ≠ .error ∧ ∃ px, cur s = some px ∧ px.a.toNat < 255)))

/-- 40_sequencer.md section 4, 10_state.md section 3: how (PHASE, POS) moves in a scan step that does not fault. -/
def Obligations.ProgramCounterMoves : Prop :=
  ∀ (s t : State) (i : Instr), s.host = [] → s.phase = .scan → current s = some i → step s = .next t →
    t.phase ≠ .error →
    (i = .runacc → t.phase = .scan ∧ t.pos = s.pos + 1)
    ∧ (∀ count, i = .runemit count →
        t.pos = s.pos ∧ (t.phase = if s.run.toNat = count ∧ sentinel s = true then .hdr else .scan))
    ∧ (isPixelChunk i = true →
        (sentinel s = true → t.phase = .hdr ∧ t.pos = s.pos) ∧ (sentinel s = false → t.phase = .scan ∧ t.pos = s.pos + 1))

/-- 20_memory.md sections 1 to 3, 10_state.md section 6: a step of the block never writes IN, never writes OUT at or above
OUTCAP, and moves WPTR only forward, by the bytes it emitted (HEADER by none). -/
def Obligations.BlockWritesOnlyWithinOut : Prop :=
  ∀ (s t : State) (i : Instr), Inv s → s.host = [] → current s = some i → step s = .next t →
    t.inp = s.inp
    ∧ (∀ a, s.outcap.toNat ≤ a → t.out.read a = s.out.read a)
    ∧ (t.phase = .error → t.wptr = s.wptr ∧ t.out = s.out)
    ∧ (t.phase ≠ .error →
        t.wptr.toNat = s.wptr.toNat + if s.phase = .hdr then 0 else (encode i).length)

/-- 30_encoding.md section 4 and 40_sequencer.md section 5 (derived there): encodings that are well-formed but that no
state a run reaches emits. -/
def Obligations.SomeEncodingsAreNeverEmitted : Prop :=
  ∀ (s : State) (i : Instr), Inv s → current s = some i →
    i ≠ .diff 0 0 0
    ∧ (∀ dg drg dbg, i = .luma dg drg dbg → ¬ inDiffRange (drg + dg) dg (dbg + dg))
    ∧ (∀ w h c cs, i = .header w h c cs → c = 3 ∨ c = 4)
    ∧ (∀ px, s.phase = .scan → cur s = some px → s.cache.get (hashOf px) = px → isPixelChunk i = true → i = .index (hashOf px))

/-- The placing of an operation, which is the model's (log entry 9): from any state `placeInstr` makes a state whose next
step performs the operation without a fault. The placed state need not be one that a run reaches, so this does not say
that a run emits the operation: DIFF 0,0,0 is placed here, and no run emits it (30_encoding.md section 4,
40_sequencer.md section 5). START is left out since it is never the current operation: the
host's write of CTRL performs it. The two other exceptions are operands that no state selects. -/
def Obligations.PlacedStatePerformsTheOperation : Prop :=
  ∀ (i : Instr) (s : State), i.wellFormed = true → i ≠ .start →
    (∀ dg drg dbg, i = .luma dg drg dbg → ¬ inDiffRange (drg + dg) dg (dbg + dg)) →
    (∀ w h c cs, i = .header w h c cs → c = 3 ∨ c = 4) →
    current (placeInstr i s) = some i ∧ (∃ t, step (placeInstr i s) = .next t ∧ t.phase ≠ .error)

/-! ## Whole encodes -/

/-- 40_sequencer.md section 6 (derived there) and 45_framing.md: an encode started at rest, its image provided and its
stream fitting in OUT, reaches DONE, and what the host then reads is exactly the byte sequence that the loop returns.
The premises on WIDTH and HEIGHT are those of 93_implementation_defined.md U1. -/
def Obligations.EncodeLeavesTheReferenceStream : Prop :=
  ∀ s t : State, busy s = false → s.host = [] → 1 ≤ s.width.toNat → 1 ≤ s.height.toNat → provided s →
    (reference s).length ≤ s.outcap.toNat → exec .start s = .next t →
    ∃ (k : Nat) (u : State), Host.Core.run core k t = .next u
      ∧ u.phase = .done ∧ u.err = .none
      ∧ (readCsr .outlen u).toNat = (reference s).length
      ∧ ∀ a, hostOut u a = (reference s)[a]?

/-- 40_sequencer.md section 6 (derived there): with no fault, DONE is reached after exactly `NPIX + K + A + 2` steps. -/
def Obligations.EncodeTakesTheCountedSteps : Prop :=
  ∀ (s t : State) (n : Nat), busy s = false → s.host = [] → 1 ≤ s.width.toNat → 1 ≤ s.height.toNat → provided s →
    (reference s).length ≤ s.outcap.toNat → exec .start s = .next t →
    n = npix s + runChunkCount (imageOf s) + artifactCount (imageOf s) + 2 →
    (∃ u : State, Host.Core.run core n t = .next u ∧ u.phase = .done)
    ∧ (∀ k < n, ∃ u : State, Host.Core.run core k t = .next u ∧ busy u = true)
    ∧ n ≤ 2 * npix s + 3

/-- 60_exceptions.md section 1 (derived there): an encode completes without fault if and only if its stream fits. -/
def Obligations.EncodeCompletesExactlyWhenItFits : Prop :=
  ∀ s t : State, busy s = false → s.host = [] → 1 ≤ s.width.toNat → 1 ≤ s.height.toNat → provided s →
    exec .start s = .next t →
    ((∃ (k : Nat) (u : State), Host.Core.run core k t = .next u ∧ u.phase = .done)
        ↔ (reference s).length ≤ s.outcap.toNat)
    ∧ ((∃ (k : Nat) (u : State), Host.Core.run core k t = .next u ∧ u.phase = .error)
        ↔ s.outcap.toNat < (reference s).length)

/-- 40_sequencer.md section 6 (the bound is derived there), 70_reset_and_hazards.md section 4: from any BUSY state that
meets `Inv`, with the image provided, the block leaves BUSY within `2*NPIX + 3` steps. There is no premise on WIDTH and
HEIGHT: with one of them 0 the statement rests on the letter of the rules (log entry 15). -/
def Obligations.EveryEncodeEnds : Prop :=
  ∀ s : State, Inv s → busy s = true → s.host = [] → provided s →
    ∃ k ≤ 2 * npix s + 3, ∃ t : State, Host.Core.run core k s = .next t ∧ busy t = false

/-- 10_state.md R25: two blocks that agree on the configuration and the image, whatever earlier encodes left in them and
in OUT, go through the same states from START on but for OUT, and show the host the same bytes. There is no premise on
WIDTH and HEIGHT: with one of them 0 the statement rests on the letter of the rules (log entry 15). -/
def Obligations.EarlierEncodesLeaveNoTrace : Prop :=
  ∀ (s s' t t' : State), busy s = false → busy s' = false → s.host = [] → sameSurroundings s s' →
    exec .start s = .next t → exec .start s' = .next t' →
    ∀ (k : Nat) (u : State), Host.Core.run core k t = .next u →
      ∃ m, Host.Core.run core k t' = .next { u with out := m } ∧ ∀ a, hostOut { u with out := m } a = hostOut u a

/-- 45_framing.md section on DONE, 20_memory.md section 3, 45_framing.md R136: in DONE the header that the host reads shows
the image: the magic, the dimensions big-endian, channels 3 exactly when every alpha is 255, CSPACE; CHANNELS agrees. -/
def Obligations.DoneHeaderDescribesTheImage : Prop :=
  ∀ (s t u : State) (k : Nat), busy s = false → s.host = [] → 1 ≤ s.width.toNat → 1 ≤ s.height.toNat → provided s →
    exec .start s = .next t → Host.Core.run core k t = .next u → u.phase = .done →
    (∀ j v, ([0x71, 0x6F, 0x69, 0x66] ++ be32 s.width ++ be32 s.height)[j]? = some v → hostOut u j = some v)
    ∧ hostOut u 13 = some s.cspace
    ∧ (hostOut u 12 = some 3 ↔ ∀ px ∈ imageOf s, px.a = 255)
    ∧ (hostOut u 12 = some 4 ↔ ∃ px ∈ imageOf s, px.a.toNat < 255)
    ∧ (hostOut u 12).map (BitVec.setWidth 64) = some (readCsr .channels u)

/-- 40_sequencer.md R83: the chunks for the image count exactly its pixels, and the whole stream one more when it carries
the artifact. -/
def Obligations.ChunkStreamCountsThePixels : Prop :=
  ∀ pixels : List Pixel,
    ∃ real artifact, (scanImage pixels).chunks = real ++ artifact
      ∧ (real.map pixelsOf).sum = pixels.length
      ∧ artifact.length = artifactCount pixels
      ∧ ((scanImage pixels).chunks.map pixelsOf).sum = pixels.length + artifactCount pixels

/-- 20_memory.md section 3 (derived there): the bounds on the length of a stream, and an image that meets the lower
one. -/
def Obligations.StreamLengthBounds : Prop :=
  ∀ (w h : Word32) (cs : Byte) (pixels : List Pixel), 1 ≤ pixels.length →
    (encodeImage w h cs pixels).length ≤ 5 * pixels.length + 27
    ∧ 22 + (pixels.length + 61) / 62 ≤ (encodeImage w h cs pixels).length
    ∧ (encodeImage w h cs (List.replicate pixels.length ⟨0, 0, 0, 255⟩)).length = 22 + (pixels.length + 61) / 62
end

