-- ==== Sys2Proof/Laws/Memory.lean ====
section
/-! SUPPORT. The laws of a byte space: read after write, writes elsewhere, the canonical form. -/

namespace Sys2Proof.Machine

theorem Memory.read_write_same (m : Memory) (a : Nat) (v : Byte) : (m.write a v).read a = some v := by
  induction m with
  | nil => simp [Memory.write, Memory.read]
  | cons c m ih =>
    obtain ⟨k, w⟩ := c
    simp only [Memory.write]
    split_ifs with h1 h2
    · simp [Memory.read]
    · simp [Memory.read]
    · simp [Memory.read, h2, ih]

theorem Memory.read_write_other (m : Memory) {a b : Nat} (v : Byte) (h : b ≠ a) :
    (m.write a v).read b = m.read b := by
  induction m with
  | nil => simp [Memory.write, Memory.read, h]
  | cons c m ih =>
    obtain ⟨k, w⟩ := c
    simp only [Memory.write]
    split_ifs with h1 h2
    · simp [Memory.read, h]
    · subst h2; simp [Memory.read, h]
    · simp [Memory.read, ih]

theorem Memory.keys_write (m : Memory) (a : Nat) (v : Byte) {c : Host.Cell} (h : c ∈ m.write a v) :
    c.1 = a ∨ c ∈ m := by
  induction m with
  | nil => simp [Memory.write] at h; simp [h]
  | cons d m ih =>
    obtain ⟨k, w⟩ := d
    simp only [Memory.write] at h
    split_ifs at h with h1 h2
    · rcases List.mem_cons.mp h with rfl | h
      · exact .inl rfl
      · exact .inr h
    · rcases List.mem_cons.mp h with rfl | h
      · exact .inl rfl
      · exact .inr (List.mem_cons_of_mem _ h)
    · rcases List.mem_cons.mp h with rfl | h
      · exact .inr List.mem_cons_self
      · exact (ih h).imp_right (List.mem_cons_of_mem _)

theorem Memory.wf_write {m : Memory} (a : Nat) (v : Byte) (h : m.wf) : (m.write a v).wf := by
  induction m with
  | nil => simp [Memory.write]
  | cons d m ih =>
    obtain ⟨k, w⟩ := d
    obtain ⟨hk, hm⟩ := List.pairwise_cons.mp h
    simp only [Memory.write]
    split_ifs with h1 h2
    · refine List.pairwise_cons.mpr ⟨fun c hc => ?_, h⟩
      rcases List.mem_cons.mp hc with rfl | hc
      · exact h1
      · exact h1.trans (hk c hc)
    · subst h2
      exact List.pairwise_cons.mpr ⟨hk, hm⟩
    · refine List.pairwise_cons.mpr ⟨fun c hc => ?_, ih hm⟩
      rcases Memory.keys_write m a v hc with hc | hc
      · simp only [hc]; omega
      · exact hk c hc

theorem Memory.wf_writeBytes {m : Memory} (a : Nat) (vs : List Byte) (h : m.wf) : (m.writeBytes a vs).wf := by
  induction vs generalizing m a with
  | nil => exact h
  | cons v vs ih => exact ih (a + 1) (Memory.wf_write a v h)

theorem Memory.read_writeBytes_outside (m : Memory) (a : Nat) (vs : List Byte) {x : Nat}
    (h : x < a ∨ a + vs.length ≤ x) : (m.writeBytes a vs).read x = m.read x := by
  induction vs generalizing m a with
  | nil => rfl
  | cons v vs ih =>
    simp only [List.length_cons] at h
    simp only [Memory.writeBytes]
    rw [ih _ (a + 1) (by omega), Memory.read_write_other _ _ (by omega)]

theorem Memory.read_writeBytes_inside (m : Memory) (a : Nat) (vs : List Byte) {j : Nat} {v : Byte}
    (h : vs[j]? = some v) : (m.writeBytes a vs).read (a + j) = some v := by
  induction vs generalizing m a j with
  | nil => simp at h
  | cons w vs ih =>
    simp only [Memory.writeBytes]
    cases j with
    | zero =>
      simp only [List.getElem?_cons_zero, Option.some.injEq] at h
      subst h
      rw [Memory.read_writeBytes_outside _ _ _ (by omega)]
      exact Memory.read_write_same _ _ _
    | succ j =>
      simp only [List.getElem?_cons_succ] at h
      have := ih (m.write a w) (a + 1) h
      rwa [Nat.add_right_comm, Nat.add_assoc] at this

/-- One lemma for a whole store: the stored bytes, and every other byte. -/
theorem Memory.read_writeBytes (m : Memory) (a : Nat) (vs : List Byte) (x : Nat) :
    (m.writeBytes a vs).read x = if a ≤ x ∧ x < a + vs.length then vs[x - a]? else m.read x := by
  split_ifs with h
  · have hlt : x - a < vs.length := by omega
    have := Memory.read_writeBytes_inside m a vs (List.getElem?_eq_getElem hlt)
    rwa [Nat.add_sub_cancel' h.1, ← List.getElem?_eq_getElem hlt] at this
  · exact Memory.read_writeBytes_outside m a vs (by omega)

theorem Memory.isSome_read_write (m : Memory) (a : Nat) (v : Byte) (x : Nat) (h : (m.read x).isSome = true) :
    ((m.write a v).read x).isSome = true := by
  by_cases hx : x = a
  · subst hx; simp [Memory.read_write_same]
  · rwa [Memory.read_write_other _ _ hx]

theorem holds_writeBytes (m : Memory) (a : Nat) (vs : List Byte) : holds (m.writeBytes a vs) a vs :=
  fun _ _ h => Memory.read_writeBytes_inside m a vs h

theorem sameOutside_writeBytes (m : Memory) (a : Nat) (vs : List Byte) :
    sameOutside m (m.writeBytes a vs) a vs.length :=
  fun _ h => Memory.read_writeBytes_outside m a vs h

end Sys2Proof.Machine
end

