-- ==== Sys2Proof/Laws/State.lean ====
section
/-! SUPPORT. One lemma per field per update of the state, so that no proof unfolds a record update; and what `busy`,
`npix`, `sentinel`, `cur` and `select` read of a state. -/

namespace Sys2Proof.Machine

@[simp] theorem noteAlpha_prev (px : Pixel) (s : State) : (noteAlpha px s).prev = s.prev := rfl
@[simp] theorem noteAlpha_run (px : Pixel) (s : State) : (noteAlpha px s).run = s.run := rfl
@[simp] theorem noteAlpha_cache (px : Pixel) (s : State) : (noteAlpha px s).cache = s.cache := rfl
@[simp] theorem noteAlpha_pos (px : Pixel) (s : State) : (noteAlpha px s).pos = s.pos := rfl
@[simp] theorem noteAlpha_phase (px : Pixel) (s : State) : (noteAlpha px s).phase = s.phase := rfl
@[simp] theorem noteAlpha_aseen (px : Pixel) (s : State) : (noteAlpha px s).aseen = (s.aseen || (!sentinel s && decide (px.a.toNat < 255))) := rfl
@[simp] theorem noteAlpha_err (px : Pixel) (s : State) : (noteAlpha px s).err = s.err := rfl
@[simp] theorem noteAlpha_wptr (px : Pixel) (s : State) : (noteAlpha px s).wptr = s.wptr := rfl
@[simp] theorem noteAlpha_width (px : Pixel) (s : State) : (noteAlpha px s).width = s.width := rfl
@[simp] theorem noteAlpha_height (px : Pixel) (s : State) : (noteAlpha px s).height = s.height := rfl
@[simp] theorem noteAlpha_cspace (px : Pixel) (s : State) : (noteAlpha px s).cspace = s.cspace := rfl
@[simp] theorem noteAlpha_outcap (px : Pixel) (s : State) : (noteAlpha px s).outcap = s.outcap := rfl
@[simp] theorem noteAlpha_inp (px : Pixel) (s : State) : (noteAlpha px s).inp = s.inp := rfl
@[simp] theorem noteAlpha_out (px : Pixel) (s : State) : (noteAlpha px s).out = s.out := rfl
@[simp] theorem noteAlpha_host (px : Pixel) (s : State) : (noteAlpha px s).host = s.host := rfl

@[simp] theorem raiseAlloc_prev (s : State) : (raiseAlloc s).prev = s.prev := rfl
@[simp] theorem raiseAlloc_run (s : State) : (raiseAlloc s).run = s.run := rfl
@[simp] theorem raiseAlloc_cache (s : State) : (raiseAlloc s).cache = s.cache := rfl
@[simp] theorem raiseAlloc_pos (s : State) : (raiseAlloc s).pos = s.pos := rfl
@[simp] theorem raiseAlloc_phase (s : State) : (raiseAlloc s).phase = .error := rfl
@[simp] theorem raiseAlloc_aseen (s : State) : (raiseAlloc s).aseen = s.aseen := rfl
@[simp] theorem raiseAlloc_err (s : State) : (raiseAlloc s).err = .alloc := rfl
@[simp] theorem raiseAlloc_wptr (s : State) : (raiseAlloc s).wptr = s.wptr := rfl
@[simp] theorem raiseAlloc_width (s : State) : (raiseAlloc s).width = s.width := rfl
@[simp] theorem raiseAlloc_height (s : State) : (raiseAlloc s).height = s.height := rfl
@[simp] theorem raiseAlloc_cspace (s : State) : (raiseAlloc s).cspace = s.cspace := rfl
@[simp] theorem raiseAlloc_outcap (s : State) : (raiseAlloc s).outcap = s.outcap := rfl
@[simp] theorem raiseAlloc_inp (s : State) : (raiseAlloc s).inp = s.inp := rfl
@[simp] theorem raiseAlloc_out (s : State) : (raiseAlloc s).out = s.out := rfl
@[simp] theorem raiseAlloc_host (s : State) : (raiseAlloc s).host = s.host := rfl

@[simp] theorem commit_prev (px : Pixel) (s : State) : (commit px s).prev = px := rfl
@[simp] theorem commit_run (px : Pixel) (s : State) : (commit px s).run = s.run := rfl
@[simp] theorem commit_cache (px : Pixel) (s : State) : (commit px s).cache = s.cache.set (hashOf px).val px (hashOf px).isLt := rfl
@[simp] theorem commit_pos (px : Pixel) (s : State) : (commit px s).pos = s.pos := rfl
@[simp] theorem commit_phase (px : Pixel) (s : State) : (commit px s).phase = s.phase := rfl
@[simp] theorem commit_aseen (px : Pixel) (s : State) : (commit px s).aseen = s.aseen := rfl
@[simp] theorem commit_err (px : Pixel) (s : State) : (commit px s).err = s.err := rfl
@[simp] theorem commit_wptr (px : Pixel) (s : State) : (commit px s).wptr = s.wptr := rfl
@[simp] theorem commit_width (px : Pixel) (s : State) : (commit px s).width = s.width := rfl
@[simp] theorem commit_height (px : Pixel) (s : State) : (commit px s).height = s.height := rfl
@[simp] theorem commit_cspace (px : Pixel) (s : State) : (commit px s).cspace = s.cspace := rfl
@[simp] theorem commit_outcap (px : Pixel) (s : State) : (commit px s).outcap = s.outcap := rfl
@[simp] theorem commit_inp (px : Pixel) (s : State) : (commit px s).inp = s.inp := rfl
@[simp] theorem commit_out (px : Pixel) (s : State) : (commit px s).out = s.out := rfl
@[simp] theorem commit_host (px : Pixel) (s : State) : (commit px s).host = s.host := rfl

@[simp] theorem nextPos_prev (s : State) : (nextPos s).prev = s.prev := rfl
@[simp] theorem nextPos_run (s : State) : (nextPos s).run = s.run := rfl
@[simp] theorem nextPos_cache (s : State) : (nextPos s).cache = s.cache := rfl
@[simp] theorem nextPos_pos (s : State) : (nextPos s).pos = if sentinel s then s.pos else s.pos + 1 := rfl
@[simp] theorem nextPos_phase (s : State) : (nextPos s).phase = if sentinel s then .hdr else s.phase := rfl
@[simp] theorem nextPos_aseen (s : State) : (nextPos s).aseen = s.aseen := rfl
@[simp] theorem nextPos_err (s : State) : (nextPos s).err = s.err := rfl
@[simp] theorem nextPos_wptr (s : State) : (nextPos s).wptr = s.wptr := rfl
@[simp] theorem nextPos_width (s : State) : (nextPos s).width = s.width := rfl
@[simp] theorem nextPos_height (s : State) : (nextPos s).height = s.height := rfl
@[simp] theorem nextPos_cspace (s : State) : (nextPos s).cspace = s.cspace := rfl
@[simp] theorem nextPos_outcap (s : State) : (nextPos s).outcap = s.outcap := rfl
@[simp] theorem nextPos_inp (s : State) : (nextPos s).inp = s.inp := rfl
@[simp] theorem nextPos_out (s : State) : (nextPos s).out = s.out := rfl
@[simp] theorem nextPos_host (s : State) : (nextPos s).host = s.host := rfl

@[simp] theorem initEncode_prev (s : State) : (initEncode s).prev = seed := rfl
@[simp] theorem initEncode_run (s : State) : (initEncode s).run = 0 := rfl
@[simp] theorem initEncode_cache (s : State) : (initEncode s).cache = (Vector.replicate 64 Pixel.zero).set 53 seed := rfl
@[simp] theorem initEncode_pos (s : State) : (initEncode s).pos = 0 := rfl
@[simp] theorem initEncode_phase (s : State) : (initEncode s).phase = s.phase := rfl
@[simp] theorem initEncode_aseen (s : State) : (initEncode s).aseen = false := rfl
@[simp] theorem initEncode_err (s : State) : (initEncode s).err = .none := rfl
@[simp] theorem initEncode_wptr (s : State) : (initEncode s).wptr = 14 := rfl
@[simp] theorem initEncode_width (s : State) : (initEncode s).width = s.width := rfl
@[simp] theorem initEncode_height (s : State) : (initEncode s).height = s.height := rfl
@[simp] theorem initEncode_cspace (s : State) : (initEncode s).cspace = s.cspace := rfl
@[simp] theorem initEncode_outcap (s : State) : (initEncode s).outcap = s.outcap := rfl
@[simp] theorem initEncode_inp (s : State) : (initEncode s).inp = s.inp := rfl
@[simp] theorem initEncode_out (s : State) : (initEncode s).out = s.out := rfl
@[simp] theorem initEncode_host (s : State) : (initEncode s).host = s.host := rfl

@[simp] theorem hardReset_prev (s : State) : (hardReset s).prev = Pixel.zero := rfl
@[simp] theorem hardReset_run (s : State) : (hardReset s).run = 0 := rfl
@[simp] theorem hardReset_cache (s : State) : (hardReset s).cache = Vector.replicate 64 Pixel.zero := rfl
@[simp] theorem hardReset_pos (s : State) : (hardReset s).pos = 0 := rfl
@[simp] theorem hardReset_phase (s : State) : (hardReset s).phase = .idle := rfl
@[simp] theorem hardReset_aseen (s : State) : (hardReset s).aseen = false := rfl
@[simp] theorem hardReset_err (s : State) : (hardReset s).err = .none := rfl
@[simp] theorem hardReset_wptr (s : State) : (hardReset s).wptr = 0 := rfl
@[simp] theorem hardReset_width (s : State) : (hardReset s).width = 0 := rfl
@[simp] theorem hardReset_height (s : State) : (hardReset s).height = 0 := rfl
@[simp] theorem hardReset_cspace (s : State) : (hardReset s).cspace = 0 := rfl
@[simp] theorem hardReset_outcap (s : State) : (hardReset s).outcap = 0 := rfl
@[simp] theorem hardReset_inp (s : State) : (hardReset s).inp = s.inp := rfl
@[simp] theorem hardReset_out (s : State) : (hardReset s).out = s.out := rfl
@[simp] theorem hardReset_host (s : State) : (hardReset s).host = s.host := rfl

@[simp] theorem appendBytes_prev (bytes : List Byte) (s : State) : (appendBytes bytes s).prev = s.prev := rfl
@[simp] theorem appendBytes_run (bytes : List Byte) (s : State) : (appendBytes bytes s).run = s.run := rfl
@[simp] theorem appendBytes_cache (bytes : List Byte) (s : State) : (appendBytes bytes s).cache = s.cache := rfl
@[simp] theorem appendBytes_pos (bytes : List Byte) (s : State) : (appendBytes bytes s).pos = s.pos := rfl
@[simp] theorem appendBytes_phase (bytes : List Byte) (s : State) : (appendBytes bytes s).phase = s.phase := rfl
@[simp] theorem appendBytes_aseen (bytes : List Byte) (s : State) : (appendBytes bytes s).aseen = s.aseen := rfl
@[simp] theorem appendBytes_err (bytes : List Byte) (s : State) : (appendBytes bytes s).err = s.err := rfl
@[simp] theorem appendBytes_wptr (bytes : List Byte) (s : State) : (appendBytes bytes s).wptr = s.wptr + BitVec.ofNat 64 bytes.length := rfl
@[simp] theorem appendBytes_width (bytes : List Byte) (s : State) : (appendBytes bytes s).width = s.width := rfl
@[simp] theorem appendBytes_height (bytes : List Byte) (s : State) : (appendBytes bytes s).height = s.height := rfl
@[simp] theorem appendBytes_cspace (bytes : List Byte) (s : State) : (appendBytes bytes s).cspace = s.cspace := rfl
@[simp] theorem appendBytes_outcap (bytes : List Byte) (s : State) : (appendBytes bytes s).outcap = s.outcap := rfl
@[simp] theorem appendBytes_inp (bytes : List Byte) (s : State) : (appendBytes bytes s).inp = s.inp := rfl
@[simp] theorem appendBytes_out (bytes : List Byte) (s : State) : (appendBytes bytes s).out = s.out.writeBytes s.wptr.toNat bytes := rfl
@[simp] theorem appendBytes_host (bytes : List Byte) (s : State) : (appendBytes bytes s).host = s.host := rfl

@[simp] theorem extendRun_prev (s : State) : (extendRun s).prev = s.prev := rfl
@[simp] theorem extendRun_run (s : State) : (extendRun s).run = s.run + 1 := rfl
@[simp] theorem extendRun_cache (s : State) : (extendRun s).cache = s.cache := rfl
@[simp] theorem extendRun_pos (s : State) : (extendRun s).pos = s.pos + 1 := rfl
@[simp] theorem extendRun_phase (s : State) : (extendRun s).phase = s.phase := rfl
@[simp] theorem extendRun_aseen (s : State) : (extendRun s).aseen = s.aseen := rfl
@[simp] theorem extendRun_err (s : State) : (extendRun s).err = s.err := rfl
@[simp] theorem extendRun_wptr (s : State) : (extendRun s).wptr = s.wptr := rfl
@[simp] theorem extendRun_width (s : State) : (extendRun s).width = s.width := rfl
@[simp] theorem extendRun_height (s : State) : (extendRun s).height = s.height := rfl
@[simp] theorem extendRun_cspace (s : State) : (extendRun s).cspace = s.cspace := rfl
@[simp] theorem extendRun_outcap (s : State) : (extendRun s).outcap = s.outcap := rfl
@[simp] theorem extendRun_inp (s : State) : (extendRun s).inp = s.inp := rfl
@[simp] theorem extendRun_out (s : State) : (extendRun s).out = s.out := rfl
@[simp] theorem extendRun_host (s : State) : (extendRun s).host = s.host := rfl

@[simp] theorem takeFromRun_prev (count : Nat) (s : State) : (takeFromRun count s).prev = s.prev := rfl
@[simp] theorem takeFromRun_run (count : Nat) (s : State) : (takeFromRun count s).run = s.run - BitVec.ofNat 64 count := rfl
@[simp] theorem takeFromRun_cache (count : Nat) (s : State) : (takeFromRun count s).cache = s.cache := rfl
@[simp] theorem takeFromRun_pos (count : Nat) (s : State) : (takeFromRun count s).pos = s.pos := rfl
@[simp] theorem takeFromRun_phase (count : Nat) (s : State) : (takeFromRun count s).phase = if s.run - BitVec.ofNat 64 count = 0 ∧ sentinel s = true then .hdr else s.phase := rfl
@[simp] theorem takeFromRun_aseen (count : Nat) (s : State) : (takeFromRun count s).aseen = s.aseen := rfl
@[simp] theorem takeFromRun_err (count : Nat) (s : State) : (takeFromRun count s).err = s.err := rfl
@[simp] theorem takeFromRun_wptr (count : Nat) (s : State) : (takeFromRun count s).wptr = s.wptr := rfl
@[simp] theorem takeFromRun_width (count : Nat) (s : State) : (takeFromRun count s).width = s.width := rfl
@[simp] theorem takeFromRun_height (count : Nat) (s : State) : (takeFromRun count s).height = s.height := rfl
@[simp] theorem takeFromRun_cspace (count : Nat) (s : State) : (takeFromRun count s).cspace = s.cspace := rfl
@[simp] theorem takeFromRun_outcap (count : Nat) (s : State) : (takeFromRun count s).outcap = s.outcap := rfl
@[simp] theorem takeFromRun_inp (count : Nat) (s : State) : (takeFromRun count s).inp = s.inp := rfl
@[simp] theorem takeFromRun_out (count : Nat) (s : State) : (takeFromRun count s).out = s.out := rfl
@[simp] theorem takeFromRun_host (count : Nat) (s : State) : (takeFromRun count s).host = s.host := rfl

theorem npix_congr {s t : State} (hw : t.width = s.width) (hh : t.height = s.height) : npix t = npix s := by
  simp [npix, hw, hh]

theorem sentinel_congr {s t : State} (hw : t.width = s.width) (hh : t.height = s.height) (hp : t.pos = s.pos) :
    sentinel t = sentinel s := by
  simp [sentinel, npix_congr hw hh, hp]

theorem busy_congr {s t : State} (h : t.phase = s.phase) : busy t = busy s := by simp [busy, h]

@[simp] theorem npix_noteAlpha (px : Pixel) (s : State) : npix (noteAlpha px s) = npix s := rfl
@[simp] theorem npix_commit (px : Pixel) (s : State) : npix (commit px s) = npix s := rfl
@[simp] theorem npix_nextPos (s : State) : npix (nextPos s) = npix s := rfl
@[simp] theorem npix_appendBytes (bytes : List Byte) (s : State) : npix (appendBytes bytes s) = npix s := rfl
@[simp] theorem npix_extendRun (s : State) : npix (extendRun s) = npix s := rfl
@[simp] theorem npix_takeFromRun (count : Nat) (s : State) : npix (takeFromRun count s) = npix s := rfl
@[simp] theorem sentinel_appendBytes (bytes : List Byte) (s : State) : sentinel (appendBytes bytes s) = sentinel s := rfl
@[simp] theorem npix_raiseAlloc (s : State) : npix (raiseAlloc s) = npix s := rfl
@[simp] theorem npix_initEncode (s : State) : npix (initEncode s) = npix s := rfl
@[simp] theorem sentinel_noteAlpha (px : Pixel) (s : State) : sentinel (noteAlpha px s) = sentinel s := rfl
@[simp] theorem sentinel_commit (px : Pixel) (s : State) : sentinel (commit px s) = sentinel s := rfl
@[simp] theorem busy_raiseAlloc (s : State) : busy (raiseAlloc s) = false := rfl
@[simp] theorem busy_hardReset (s : State) : busy (hardReset s) = false := rfl

theorem sentinel_iff (s : State) : sentinel s = true ↔ s.pos.toNat = npix s := by simp [sentinel]

theorem busy_iff (s : State) : busy s = true ↔ s.phase = .scan ∨ s.phase = .hdr ∨ s.phase = .fin := by
  cases h : s.phase <;> simp [busy, h]

end Sys2Proof.Machine
end

