-- ==== Sys2Proof/Laws/Ops.lean ====
section
/-! SUPPORT. What each shared operation can do, once: hash and deltas, Emit, START, the selector, and the inversion of
the scan step. -/

namespace Sys2Proof.Machine

theorem hashOf_seed : hashOf seed = 53 := by decide

theorem hashOf_zero : hashOf Pixel.zero = 0 := by decide

/-- 43_delta.md R110: the low 8 bits are the wrapped difference. -/
theorem sdelta8_range (x y : Byte) : -128 ≤ sdelta8 x y ∧ sdelta8 x y ≤ 127 := by
  unfold sdelta8
  generalize x - y = d
  have h1 := BitVec.le_toInt d
  have h2 := BitVec.toInt_lt (x := d)
  norm_num at h1 h2
  omega

theorem sdelta8_zero_iff (x y : Byte) : sdelta8 x y = 0 ↔ x = y := by
  unfold sdelta8
  constructor
  · intro h
    have : x - y = 0 := BitVec.eq_of_toInt_eq (by simpa using h)
    bv_omega
  · rintro rfl; simp

theorem get_set_slot (c : Vector Pixel 64) (k j : Fin 64) (p : Pixel) :
    (c.set k.val p k.isLt).get j = if j = k then p else c.get j := by
  simp only [Vector.get_eq_getElem, Vector.getElem_set]
  simp [Fin.ext_iff, eq_comm]

theorem emit_eq_some_iff {bytes : List Byte} {s t : State} :
    emit bytes s = some t ↔ s.wptr.toNat + bytes.length ≤ s.outcap.toNat ∧
      t = appendBytes bytes s := by
  unfold emit
  split_ifs with h
  · simp; omega
  · simp only [Option.some.injEq]
    exact ⟨fun h' => ⟨by omega, h'.symm⟩, fun h' => h'.2.symm⟩

theorem emit_eq_none_iff {bytes : List Byte} {s : State} :
    emit bytes s = none ↔ s.outcap.toNat < s.wptr.toNat + bytes.length := by
  unfold emit; split_ifs with h <;> simp [h]

/-- A write pointer that stays within OUTCAP does not wrap (10_state.md R22). -/
theorem wptr_add_toNat {s : State} {n : Nat} (h : s.wptr.toNat + n ≤ s.outcap.toNat) :
    (s.wptr + BitVec.ofNat 64 n).toNat = s.wptr.toNat + n := by
  have := s.outcap.isLt
  rw [BitVec.toNat_add, BitVec.toNat_ofNat, Nat.mod_eq_of_lt (a := n) (by omega), Nat.mod_eq_of_lt (by omega)]

theorem chunkBody_eq_some_iff {bytes : List Byte} {px : Pixel} {s t : State} :
    chunkBody bytes px s = some t ↔ s.wptr.toNat + bytes.length ≤ s.outcap.toNat ∧
      t = nextPos (commit px (appendBytes bytes s)) := by
  unfold chunkBody
  rw [Option.map_eq_some_iff]
  constructor
  · rintro ⟨u, hu, rfl⟩
    obtain ⟨h, rfl⟩ := emit_eq_some_iff.mp hu
    exact ⟨h, rfl⟩
  · rintro ⟨h, rfl⟩
    exact ⟨_, emit_eq_some_iff.mpr ⟨h, rfl⟩, rfl⟩

theorem chunkBody_eq_none_iff {bytes : List Byte} {px : Pixel} {s : State} :
    chunkBody bytes px s = none ↔ s.outcap.toNat < s.wptr.toNat + bytes.length := by
  simp [chunkBody, emit_eq_none_iff]

theorem runBody_eq_some_iff {count : Nat} {px : Pixel} {s t : State} :
    runBody count px s = some t ↔ s.wptr.toNat + 1 ≤ s.outcap.toNat ∧
      t = takeFromRun count (appendBytes (encode (.runemit count)) s) := by
  unfold runBody
  rw [Option.map_eq_some_iff]
  constructor
  · rintro ⟨u, hu, rfl⟩
    obtain ⟨h, rfl⟩ := emit_eq_some_iff.mp hu
    exact ⟨h, rfl⟩
  · rintro ⟨h, rfl⟩
    exact ⟨_, emit_eq_some_iff.mpr ⟨h, rfl⟩, rfl⟩

theorem runBody_eq_none_iff {count : Nat} {px : Pixel} {s : State} :
    runBody count px s = none ↔ s.outcap.toNat < s.wptr.toNat + 1 := by
  simp [runBody, emit_eq_none_iff, encode]

/-- Everything a scan operation can do when it answers a next state. -/
theorem scanOp_next {i : Instr} {body : Pixel → State → Option State} {s t : State}
    (h : scanOp i body s = .next t) :
    s.phase = .scan ∧ ∃ px, cur s = some px ∧ select px s = i ∧
      (body px (noteAlpha px s) = some t ∨ body px (noteAlpha px s) = none ∧ t = raiseAlloc s) := by
  unfold scanOp at h
  split at h
  · rename_i px hp hc
    split_ifs at h with hs
    refine ⟨hp, px, hc, hs, ?_⟩
    split at h
    · rename_i u hu
      cases h
      exact .inl hu
    · rename_i hu
      cases h
      exact .inr ⟨hu, rfl⟩
  · cases h
  · cases h

/-- A selected scan operation whose body answers: that is the step. -/
theorem scanOp_of_some {i : Instr} {body : Pixel → State → Option State} {s t : State} {px : Pixel}
    (hp : s.phase = .scan) (hc : cur s = some px) (hs : select px s = i) (hb : body px (noteAlpha px s) = some t) :
    scanOp i body s = .next t := by
  simp [scanOp, hp, hc, hs, hb]

/-- A selected scan operation whose bytes do not fit takes the fault. -/
theorem scanOp_of_none {i : Instr} {body : Pixel → State → Option State} {s : State} {px : Pixel}
    (hp : s.phase = .scan) (hc : cur s = some px) (hs : select px s = i) (hb : body px (noteAlpha px s) = none) :
    scanOp i body s = .next (raiseAlloc s) := by
  simp [scanOp, hp, hc, hs, hb]

/-- The selector's three outcomes, with what the earlier tests left behind (40_sequencer.md R75). -/
theorem select_cases (px : Pixel) (s : State) :
    (select px s = .runacc ∧ sentinel s = false ∧ px = s.prev) ∨
    (select px s = .runemit (min s.run.toNat 62) ∧ (sentinel s = true ∨ px ≠ s.prev) ∧ 0 < s.run.toNat) ∨
    (select px s = chunkFor s.cache s.prev px ∧ (sentinel s = true ∨ px ≠ s.prev) ∧ s.run = 0) := by
  unfold select
  by_cases h1 : (!sentinel s && decide (px = s.prev)) = true
  · left
    simp only [h1, if_true, true_and]
    simpa using h1
  · right
    have h1' : sentinel s = true ∨ px ≠ s.prev := by
      by_cases hs : sentinel s = true
      · exact .inl hs
      · right; simpa [hs] using h1
    simp only [h1]
    by_cases h2 : 0 < s.run.toNat
    · left; simp [h2, h1']
    · right
      have : s.run = 0 := by bv_omega
      simp [h1', this]

theorem select_of_chunkTests {px : Pixel} {s : State} (h1 : sentinel s = true ∨ px ≠ s.prev) (h2 : s.run = 0) :
    select px s = chunkFor s.cache s.prev px := by
  unfold select
  rw [if_neg (by rcases h1 with h | h <;> simp [h]), if_neg (by simp [h2])]

/-- A chunk operation is one of the five, and test 3 to 5 never gives a run operation. -/
theorem chunkFor_isPixelChunk (c : Vector Pixel 64) (p px : Pixel) : isPixelChunk (chunkFor c p px) = true := by
  unfold chunkFor
  dsimp only
  split_ifs <;> rfl

/-- Every chunk of tests 3 to 5 has one to five bytes (30_encoding.md R61). -/
theorem encode_chunkFor_length (c : Vector Pixel 64) (p px : Pixel) :
    1 ≤ (encode (chunkFor c p px)).length ∧ (encode (chunkFor c p px)).length ≤ 5 := by
  unfold chunkFor
  dsimp only
  split_ifs <;> simp [encode]

/-- The meaning of a chunk operation is the shared shape with the bytes of its encoding. -/
theorem exec_pixelChunk {i : Instr} (h : isPixelChunk i = true) (s : State) :
    exec i s = scanOp i (chunkBody (encode i)) s := by
  cases i <;> first | rfl | cases h

theorem sentinel_of_lt {s : State} (h : s.pos.toNat < npix s) : sentinel s = false := by
  simp [sentinel]; omega

/-- The slots right after START (10_state.md R26). -/
theorem initial_slot (k : Fin 64) :
    ((Vector.replicate 64 Pixel.zero).set 53 seed).get k = if k = 53 then seed else Pixel.zero := by
  refine (get_set_slot (Vector.replicate 64 Pixel.zero) 53 k seed).trans ?_
  simp [Vector.get_eq_getElem]

theorem scanOp_refused {i : Instr} {body : Pixel → State → Option State} {s : State} {r : Refusal}
    (h : scanOp i body s = .refused r) :
    (r = .inputMissing ∧ s.phase = .scan ∧ cur s = none) ∨ r = .notSelected := by
  unfold scanOp at h
  split at h
  · split_ifs at h
    · split at h <;> cases h
    · cases h
      exact .inr rfl
  · rename_i h1 h2
    cases h
    exact .inl ⟨rfl, h1, h2⟩
  · cases h
    exact .inr rfl

/-- What INDEX, DIFF, LUMA, RGB and RGBA do alike, once tests 1 and 2 have failed (40_sequencer.md R77, R78;
60_exceptions.md R156). -/
theorem exec_selectedChunk {s : State} {px : Pixel} {i : Instr} (hr : reachesChunkTests px s)
    (hi : chunkFor s.cache s.prev px = i) :
    (s.wptr.toNat + (encode i).length ≤ s.outcap.toNat →
      ∃ t, exec i s = .next t ∧ holds t.out s.wptr.toNat (encode i) ∧ consumed (encode i).length px s t
        ∧ t.cache = s.cache.set (hashOf px).val px (hashOf px).isLt)
    ∧ (s.outcap.toNat < s.wptr.toNat + (encode i).length →
      exec i s = .next { s with err := .alloc, phase := .error }) := by
  obtain ⟨hp, hc, hb, hz⟩ := hr
  have hsel : select px s = i := by rw [select_of_chunkTests hb hz, hi]
  rw [exec_pixelChunk (by rw [← hi]; exact chunkFor_isPixelChunk _ _ _)]
  constructor
  · intro hf
    refine ⟨_, scanOp_of_some hp hc hsel (chunkBody_eq_some_iff.mpr ⟨hf, rfl⟩), holds_writeBytes _ _ _, ?_, rfl⟩
    refine ⟨⟨rfl, rfl, rfl, rfl, rfl, rfl⟩, sameOutside_writeBytes _ _ _, rfl, rfl, wptr_add_toNat hf, rfl, ?_, ?_, ?_, ?_⟩
    · simp only [nextPos_cache, commit_cache]
      rw [get_set_slot]
      simp
    · intro k hk
      simp only [nextPos_cache, commit_cache]
      rw [get_set_slot, if_neg hk]
      rfl
    · intro hs
      simp [hs]
    · intro hs
      simp [hs, hp]
  · intro hf
    exact scanOp_of_none hp hc hsel (chunkBody_eq_none_iff.mpr hf)

end Sys2Proof.Machine
end

