-- ==== Sys2Proof/Laws/Step.lean ====
section
/-! SUPPORT. What one step can do, said once: the inversion of the block's step and of the host's turn. -/

namespace Sys2Proof.Machine

/-- A scan step without a fault, as an update of the state before it (40_sequencer.md R74). -/
inductive ScanMove (s : State) (px : Pixel) : State → Prop
  /-- RUNACC (41_run.md R90). -/
  | acc (hs : sentinel s = false) (hp : px = s.prev) :
      ScanMove s px (extendRun (noteAlpha px s))
  /-- RUNEMIT (41_run.md R91). -/
  | flush (count : Nat) (hb : sentinel s = true ∨ px ≠ s.prev) (hr : 0 < s.run.toNat)
      (hc : count = min s.run.toNat 62) (hf : s.wptr.toNat + 1 ≤ s.outcap.toNat) :
      ScanMove s px (takeFromRun count (appendBytes (encode (.runemit count)) (noteAlpha px s)))
  /-- INDEX, DIFF, LUMA, RGB or RGBA (40_sequencer.md R77, R78). -/
  | chunk (i : Instr) (hb : sentinel s = true ∨ px ≠ s.prev) (hr : s.run = 0)
      (hi : chunkFor s.cache s.prev px = i) (hf : s.wptr.toNat + (encode i).length ≤ s.outcap.toNat) :
      ScanMove s px (nextPos (commit px (appendBytes (encode i) (noteAlpha px s))))

/-- A step of the block that answers a next state. -/
inductive BlockMove (s : State) : State → Prop
  /-- Not BUSY: no step. -/
  | rest (hb : busy s = false) : BlockMove s s
  /-- A scan step. -/
  | scan (px : Pixel) (t : State) (hp : s.phase = .scan) (hc : cur s = some px) (hm : ScanMove s px t) : BlockMove s t
  /-- ALLOC in a scan step: the bytes of the current operation do not fit. -/
  | scanFault (px : Pixel) (hp : s.phase = .scan) (hc : cur s = some px)
      (hr : sentinel s = true ∨ px ≠ s.prev)
      (hf : s.outcap.toNat < s.wptr.toNat + (encode (select px s)).length) : BlockMove s (raiseAlloc s)
  /-- HEADER. -/
  | header (hp : s.phase = .hdr) :
      BlockMove s { s with out := s.out.writeBytes 0 (encode (headerOf s)), phase := .fin }
  /-- ENDMARK. -/
  | endmark (hp : s.phase = .fin) (hf : s.wptr.toNat + 8 ≤ s.outcap.toNat) :
      BlockMove s { appendBytes (encode .endmark) s with phase := .done }
  /-- ALLOC in ENDMARK. -/
  | endFault (hp : s.phase = .fin) (hf : s.outcap.toNat < s.wptr.toNat + 8) : BlockMove s (raiseAlloc s)

theorem current_scan {s : State} {i : Instr} (hp : s.phase = .scan) (h : current s = some i) :
    ∃ px, cur s = some px ∧ select px s = i := by
  simpa [current, hp] using h

/-- Performing the selected scan operation is a scan move or the fault. -/
theorem exec_select {s t : State} {px : Pixel} (hp : s.phase = .scan) (hc : cur s = some px)
    (h : exec (select px s) s = .next t) : BlockMove s t := by
  rcases select_cases px s with ⟨hs, h1, h2⟩ | ⟨hs, h1, h2⟩ | ⟨hs, h1, h2⟩
  · rw [hs] at h
    obtain ⟨-, px', hc', -, hb | hb⟩ := scanOp_next (show scanOp .runacc accBody s = .next t from h)
    · obtain rfl : px = px' := by simpa [hc] using hc'
      cases hb
      exact .scan px _ hp hc (.acc h1 h2)
    · simp [accBody] at hb
  · rw [hs] at h
    obtain ⟨-, px', hc', -, hb | hb⟩ := scanOp_next (show scanOp _ (runBody _) s = .next t from h)
    · obtain rfl : px = px' := by simpa [hc] using hc'
      obtain ⟨hf, rfl⟩ := runBody_eq_some_iff.mp hb
      exact .scan px _ hp hc (.flush _ h1 h2 rfl hf)
    · obtain ⟨hb, rfl⟩ := hb
      have hf := runBody_eq_none_iff.mp hb
      exact .scanFault px hp hc h1 (by rw [hs]; exact hf)
  · rw [hs, exec_pixelChunk (chunkFor_isPixelChunk _ _ _)] at h
    obtain ⟨-, px', hc', -, hb | hb⟩ := scanOp_next h
    · obtain rfl : px = px' := by simpa [hc] using hc'
      obtain ⟨hf, rfl⟩ := chunkBody_eq_some_iff.mp hb
      exact .scan px _ hp hc (.chunk _ h1 h2 rfl hf)
    · obtain ⟨hb, rfl⟩ := hb
      have hf := chunkBody_eq_none_iff.mp hb
      exact .scanFault px hp hc h1 (by rw [hs]; exact hf)

/-- Everything the block's step can do when it answers a next state. -/
theorem blockStep_next {s t : State} (h : blockStep s = .next t) : BlockMove s t := by
  unfold blockStep at h
  split at h
  · rename_i i hi
    cases hp : s.phase with
    | scan =>
      obtain ⟨px, hc, rfl⟩ := current_scan hp hi
      exact exec_select hp hc h
    | hdr =>
      simp only [current, hp, Option.some.injEq] at hi
      subst hi
      simp only [headerOf, exec, execHeader, hp, true_and, if_true] at h
      cases h
      exact .header hp
    | fin =>
      simp only [current, hp, Option.some.injEq] at hi
      subst hi
      simp only [exec, execEndmark, hp, if_true] at h
      split at h
      · rename_i u hu
        cases h
        obtain ⟨hf, rfl⟩ := emit_eq_some_iff.mp hu
        exact .endmark hp hf
      · rename_i hu
        cases h
        exact .endFault hp (emit_eq_none_iff.mp hu)
    | idle => simp [current, hp] at hi
    | done => simp [current, hp] at hi
    | error => simp [current, hp] at hi
  · split_ifs at h with hb
    cases h
    exact .rest (by simpa using hb)

/-- Everything a step can do when it answers a next state: the block's move, or the host's (log entry 2). -/
theorem step_next {s t : State} (h : step s = .next t) :
    (s.host = [] ∧ BlockMove s t) ∨
    ∃ e rest, s.host = e :: rest ∧
      ((e = .yield ∧ BlockMove { s with host := rest } t) ∨
       (e = .reset ∧ t = hardReset { s with host := rest }) ∨
       (∃ v, e = .write .ctrl v ∧ v.extractLsb' 0 1 = 1#1 ∧
          t = if busy s then { s with host := rest } else startState { s with host := rest }) ∨
       (∃ r v, e = .write r v ∧ t = setConfig r v { s with host := rest }) ∨
       (∃ a v, e = .placeIn a v ∧ busy s = false ∧ t = { s with inp := s.inp.write a v, host := rest }) ∨
       (∃ a v, e = .placeOut a v ∧ busy s = false ∧ t = { s with out := s.out.write a v, host := rest })) := by
  unfold step at h
  split at h
  · rename_i hh
    exact .inl ⟨hh, blockStep_next h⟩
  · rename_i e rest hh
    refine .inr ⟨e, rest, hh, ?_⟩
    cases e with
    | yield => exact .inl ⟨rfl, blockStep_next h⟩
    | reset =>
      cases h
      exact .inr (.inl ⟨rfl, rfl⟩)
    | write r v =>
      simp only [hostAct, writeCsr] at h
      split_ifs at h with hc
      · obtain ⟨rfl, hv⟩ := hc
        cases h
        exact .inr (.inr (.inl ⟨v, rfl, hv, rfl⟩))
      · cases h
        exact .inr (.inr (.inr (.inl ⟨r, v, rfl, rfl⟩)))
    | placeIn a v =>
      simp only [hostAct, placeByte] at h
      split_ifs at h with hb
      cases h
      exact .inr (.inr (.inr (.inr (.inl ⟨a, v, rfl, by simpa [busy] using hb, rfl⟩))))
    | placeOut a v =>
      simp only [hostAct, placeByte] at h
      split_ifs at h with hb
      cases h
      exact .inr (.inr (.inr (.inr (.inr ⟨a, v, rfl, by simpa [busy] using hb, rfl⟩))))

/-- With no host action pending a step is the block's. -/
theorem step_of_host_nil {s : State} (h : s.host = []) : step s = blockStep s := by
  unfold step; rw [h]

/-- A block at rest does not move. -/
theorem BlockMove.eq_of_rest {s t : State} (h : BlockMove s t) (hb : busy s = false) : t = s := by
  cases h with
  | rest => rfl
  | scan px t hp hc hm => simp [busy, hp] at hb
  | scanFault _ hp => simp [busy, hp] at hb
  | header hp => simp [busy, hp] at hb
  | endmark hp => simp [busy, hp] at hb
  | endFault hp => simp [busy, hp] at hb

/-- No operation of the block writes a configuration register, IN or the host's plans. -/
theorem BlockMove.sameSurroundings {s t : State} (h : BlockMove s t) : sameSurroundings s t := by
  cases h with
  | scan px t hp hc hm => cases hm <;> exact ⟨rfl, rfl, rfl, rfl, rfl, rfl⟩
  | rest => exact ⟨rfl, rfl, rfl, rfl, rfl, rfl⟩
  | scanFault => exact ⟨rfl, rfl, rfl, rfl, rfl, rfl⟩
  | header => exact ⟨rfl, rfl, rfl, rfl, rfl, rfl⟩
  | endmark => exact ⟨rfl, rfl, rfl, rfl, rfl, rfl⟩
  | endFault => exact ⟨rfl, rfl, rfl, rfl, rfl, rfl⟩

/-- The current operation always answers a next state: a fault of the block is one (60_exceptions.md R156). -/
theorem exec_current {s : State} {i : Instr} (h : current s = some i) : ∃ t, exec i s = .next t := by
  cases hp : s.phase with
  | scan =>
    obtain ⟨px, hc, rfl⟩ := current_scan hp h
    have hany : ∀ body, ∃ t, scanOp (select px s) body s = .next t := by
      intro body
      simp only [scanOp, hp, hc, if_true]
      split <;> exact ⟨_, rfl⟩
    rcases select_cases px s with ⟨hs, -⟩ | ⟨hs, -⟩ | ⟨hs, -⟩
    · have := hany accBody
      rw [hs] at this ⊢
      exact this
    · have := hany (runBody (min s.run.toNat 62))
      rw [hs] at this ⊢
      exact this
    · have := hany (chunkBody (encode (select px s)))
      rw [exec_pixelChunk (by rw [hs]; exact chunkFor_isPixelChunk _ _ _)]
      exact this
  | hdr =>
    simp only [current, hp, Option.some.injEq] at h
    subst h
    simp [headerOf, exec, execHeader, hp]
  | fin =>
    simp only [current, hp, Option.some.injEq] at h
    subst h
    simp only [exec, execEndmark, hp, if_true]
    split <;> exact ⟨_, rfl⟩
  | idle => simp [current, hp] at h
  | done => simp [current, hp] at h
  | error => simp [current, hp] at h

end Sys2Proof.Machine
end

