-- ==== Sys2Proof/Laws/Encoding.lean ====
section
/-! SUPPORT. The laws of the fields and bytes that the decoder and the serializer share, one per field width, and the
well-formedness of what the selector chooses. -/

namespace Sys2Proof

theorem ofBe32_be32 (v : Word32) : ∃ b3 b2 b1 b0, be32 v = [b3, b2, b1, b0] ∧ ofBe32 b3 b2 b1 b0 = v := by
  refine ⟨_, _, _, _, rfl, ?_⟩
  unfold ofBe32
  apply BitVec.eq_of_getLsbD_eq
  intro i hi
  simp only [BitVec.getLsbD_append, BitVec.getLsbD_extractLsb']
  by_cases h1 : i < 8
  · simp [h1]
  · by_cases h2 : i - 8 < 8
    · simp [h1, h2]; congr 1; omega
    · by_cases h3 : i - 8 - 8 < 8
      · simp [h1, h2, h3]; congr 1; omega
      · simp [h1, h2, h3, show i - 8 - 8 - 8 < 8 by omega]; congr 1; omega

theorem be32_ofBe32 (b3 b2 b1 b0 : Byte) : be32 (ofBe32 b3 b2 b1 b0) = [b3, b2, b1, b0] := by
  unfold be32 ofBe32
  simp only [List.cons.injEq, and_true]
  refine ⟨?_, ?_, ?_, ?_⟩ <;>
  · apply BitVec.eq_of_getLsbD_eq
    intro i hi
    simp only [BitVec.getLsbD_append, BitVec.getLsbD_extractLsb']
    rcases i with _ | _ | _ | _ | _ | _ | _ | _ | i <;> first | omega | simp

/-- 20_memory.md R37: most significant byte first. -/
theorem be32_eq_div (v : Word32) :
    be32 v = [BitVec.ofNat 8 (v.toNat / 2 ^ 24), BitVec.ofNat 8 (v.toNat / 2 ^ 16), BitVec.ofNat 8 (v.toNat / 2 ^ 8),
      BitVec.ofNat 8 v.toNat] := by
  simp only [be32, List.cons.injEq, and_true]
  refine ⟨?_, ?_, ?_, ?_⟩ <;> apply BitVec.eq_of_toNat_eq <;>
    simp [BitVec.extractLsb'_toNat, Nat.shiftRight_eq_div_pow]

theorem unbias_ofInt_two : ∀ k : Fin 4, unbias 2 (BitVec.ofInt 2 (k.val : Int)) 2 = (k.val : Int) - 2 := by decide

theorem unbias_ofInt_four : ∀ k : Fin 16, unbias 4 (BitVec.ofInt 4 (k.val : Int)) 8 = (k.val : Int) - 8 := by decide

theorem unbias_ofInt_six : ∀ k : Fin 64, unbias 6 (BitVec.ofInt 6 (k.val : Int)) 32 = (k.val : Int) - 32 := by decide

/-- A tag of two bits over a field of six. -/
theorem field_tagged (tag : BitVec 2) (k : BitVec 6) :
    field (tag ++ k : BitVec (2 + 6)) 6 2 = tag ∧ field (tag ++ k : BitVec (2 + 6)) 0 6 = k := by
  constructor <;> apply BitVec.eq_of_getLsbD_eq <;> intro i hi <;>
    simp only [field, BitVec.getLsbD_extractLsb', BitVec.getLsbD_append]
  · simp [hi]
  · simp [hi]

namespace Machine

theorem diffFits_iff (dr dg db : Int) : diffFits dr dg db = true ↔ inDiffRange dr dg db := by
  simp [diffFits, inDiffRange]

theorem lumaFits_iff (dr dg db : Int) : lumaFits dg (dr - dg) (db - dg) = true ↔ inLumaRange dr dg db := by
  simp [lumaFits, inLumaRange]

/-- Tests 3 to 5 choose an operation whose operands fit their fields. -/
theorem chunkFor_wellFormed (c : Vector Pixel 64) (p px : Pixel) : (chunkFor c p px).wellFormed = true := by
  unfold chunkFor
  dsimp only
  split_ifs with h1 h2 h3 h4
  · simp [Instr.wellFormed]
  · simpa [Instr.wellFormed, diffFits] using h3
  · simpa [Instr.wellFormed, lumaFits] using h4
  · rfl
  · rfl

end Machine

end Sys2Proof
end

