-- ==== Sys2Proof/Laws/PerInstr.lean ====
section
/-! SUPPORT. A statement of every operation, one lemma per constructor: the length of what the serializer writes is the
length of the format that 30_encoding.md R51 gives the operation. -/

namespace Sys2Proof.Laws.FormatLength

/-- The byte lengths of 30_encoding.md R51. -/
def formatLength : Instr → Nat
  | .start => 0
  | .runacc => 0
  | .runemit _ => 1
  | .index _ => 1
  | .diff _ _ _ => 1
  | .luma _ _ _ => 2
  | .rgb _ _ _ => 4
  | .rgba _ _ _ _ => 5
  | .header _ _ _ _ => 14
  | .endmark => 8

/-- The serializer writes as many bytes as the format has, whatever the operands. -/
def Statement (i : Instr) : Prop := (encode i).length = formatLength i

theorem start : Statement .start := rfl
theorem runacc : Statement .runacc := rfl
theorem runemit (count : Nat) : Statement (.runemit count) := rfl
theorem index (slot : Nat) : Statement (.index slot) := rfl
theorem diff (dr dg db : Int) : Statement (.diff dr dg db) := rfl
theorem luma (dg drg dbg : Int) : Statement (.luma dg drg dbg) := rfl
theorem rgb (r g b : Byte) : Statement (.rgb r g b) := rfl
theorem rgba (r g b a : Byte) : Statement (.rgba r g b a) := rfl
theorem header (w h : Word32) (c s : Byte) : Statement (.header w h c s) := rfl
theorem endmark : Statement .endmark := rfl

end Sys2Proof.Laws.FormatLength
end

