-- ==== Sys2Proof/Tests/Slice0.lean ====
section
/-! SUPPORT. Tests whose expected results are the spec's worked values (95_test_vectors.md, 30_encoding.md), and one
witness for the hypotheses of every statement that has some. -/

namespace Sys2Proof.Tests

open Sys2Proof Sys2Proof.Machine

/-! ## Well-formedness: an ill-formed term for each check -/

theorem test_wellFormed_refuses_run_0 : (Instr.runemit 0).wellFormed = false := by decide
theorem test_wellFormed_refuses_run_63 : (Instr.runemit 63).wellFormed = false := by decide
theorem test_wellFormed_refuses_slot_64 : (Instr.index 64).wellFormed = false := by decide
theorem test_wellFormed_refuses_diff :
    (Instr.diff (-3) 0 0).wellFormed = false ∧ (Instr.diff 2 0 0).wellFormed = false
      ∧ (Instr.diff 0 (-3) 0).wellFormed = false ∧ (Instr.diff 0 2 0).wellFormed = false
      ∧ (Instr.diff 0 0 (-3)).wellFormed = false ∧ (Instr.diff 0 0 2).wellFormed = false := by decide
theorem test_wellFormed_refuses_luma :
    (Instr.luma (-33) 0 0).wellFormed = false ∧ (Instr.luma 32 0 0).wellFormed = false
      ∧ (Instr.luma 0 (-9) 0).wellFormed = false ∧ (Instr.luma 0 8 0).wellFormed = false
      ∧ (Instr.luma 0 0 (-9)).wellFormed = false ∧ (Instr.luma 0 0 8).wellFormed = false := by decide

/-! ## Decoding: words written out bit by bit from 30_encoding.md R52 to R59, values from 95_test_vectors.md -/

/-- F-RUN, R55: `11` and `count - 1`; V2: `FD` is count 62, `F3` count 52. -/
theorem test_decode_runemit :
    decode .chunk [0b11111101] = .ok (.runemit 62, []) ∧ decode .chunk [0b11000000] = .ok (.runemit 1, [])
      ∧ decode .chunk [0xF3] = .ok (.runemit 52, []) := by decide
/-- F-INDEX, R52: `00` and the slot; V3: `35` is slot 53, `2A` slot 42. -/
theorem test_decode_index :
    decode .chunk [0b00110101] = .ok (.index 53, []) ∧ decode .chunk [0x2A] = .ok (.index 42, []) := by decide
/-- F-DIFF, R53; V4: `40`, `7F`, `72` (deltas 1, -2, 0), `4D` (-2, 1, -1). -/
theorem test_decode_diff :
    decode .chunk [0b01000000] = .ok (.diff (-2) (-2) (-2), []) ∧ decode .chunk [0b01111111] = .ok (.diff 1 1 1, [])
      ∧ decode .chunk [0b01110010] = .ok (.diff 1 (-2) 0, []) ∧ decode .chunk [0x4D] = .ok (.diff (-2) 1 (-1), []) := by
  decide
/-- F-LUMA, R54; V5: `80 00` all fields least, `BF FF` all greatest, `A1 79` (dg 1, -1, 1), `A2 97` (2, 1, -1). -/
theorem test_decode_luma :
    decode .chunk [0b10000000, 0b00000000] = .ok (.luma (-32) (-8) (-8), [])
      ∧ decode .chunk [0b10111111, 0b11111111] = .ok (.luma 31 7 7, [])
      ∧ decode .chunk [0xA1, 0x79] = .ok (.luma 1 (-1) 1, []) ∧ decode .chunk [0xA2, 0x97] = .ok (.luma 2 1 (-1), []) := by
  decide
/-- F-RGB, R56, and F-RGBA, R57: tag, then red, green, blue (, alpha); V5, V6, V7 i. -/
theorem test_decode_literals :
    decode .chunk [0b11111110, 0xC8, 0x64, 0x32] = .ok (.rgb 200 100 50, [])
      ∧ decode .chunk [0b11111111, 0x01, 0x07, 0x03, 0x07] = .ok (.rgba 1 7 3 7, []) := by decide
/-- F-HDR, R58; V8: the header of a 300-wide and of a 0x01020304-wide image. -/
theorem test_decode_header :
    decode .header [0x71, 0x6F, 0x69, 0x66, 0, 0, 1, 0x2C, 0, 0, 0, 1, 3, 1] = .ok (.header 300 1 3 1, [])
      ∧ decode .header [0x71, 0x6F, 0x69, 0x66, 1, 2, 3, 4, 0x0A, 0x0B, 0x0C, 0x0D, 4, 0]
          = .ok (.header 0x01020304 0x0A0B0C0D 4 0, []) := by decide
/-- F-END, R59. -/
theorem test_decode_endmark : decode .endMark [0, 0, 0, 0, 0, 0, 0, 1] = .ok (.endmark, []) := by decide
/-- Bytes that are no encoding of the part asked for, by name. -/
theorem test_decode_rejects :
    decode .chunk [] = .error .noByte ∧ decode .chunk [0xFE, 1, 2] = .error .truncated
      ∧ decode .header [0x71, 0x6F, 0x69, 0x67, 0, 0, 0, 1, 0, 0, 0, 1, 3, 0] = .error .badMagic
      ∧ decode .endMark [0, 0, 0, 0, 0, 0, 0, 0] = .error .badEndMark := by decide

/-- The serializer on the same vectors (V2, V3, V4, V5, V6, V8). -/
theorem test_encode :
    encode (.runemit 62) = [0xFD] ∧ encode (.index 53) = [0x35] ∧ encode (.diff (-1) 0 0) = [0x5A]
      ∧ encode (.luma 20 (-4) (-5)) = [0xB4, 0x43] ∧ encode (.rgb 245 240 250) = [0xFE, 0xF5, 0xF0, 0xFA]
      ∧ encode (.rgba 255 0 0 128) = [0xFF, 0xFF, 0, 0, 0x80]
      ∧ encode (.header 3 2 4 1) = [0x71, 0x6F, 0x69, 0x66, 0, 0, 0, 3, 0, 0, 0, 2, 4, 1]
      ∧ encode .endmark = [0, 0, 0, 0, 0, 0, 0, 1] := by decide

/-- Table words, first byte lowest. -/
theorem test_table_words :
    decodeTableWord 8 0xC5 = some (.runemit 6) ∧ decodeTableWord 8 0x35 = some (.index 53)
      ∧ decodeTableWord 8 0x5A = some (.diff (-1) 0 0) ∧ decodeTableWord 16 0x76A2 = some (.luma 2 (-1) (-2))
      ∧ decodeTableWord 32 0x3264C8FE = some (.rgb 200 100 50) ∧ decodeTableWord 40 0x80000000FF = some (.rgba 0 0 0 128)
      ∧ decodeTableWord 112 0x66696F71 = some (.header 0 0 0 0)
      ∧ decodeTableWord 64 0x0100000000000000 = some .endmark := by decide

/-- A placed word is what the next step runs: INDEX 53 writes `35` at WPTR. -/
theorem test_withFetchWord :
    current (State.reset.withFetchWord 8 0x35) = some (.index 53)
      ∧ current (State.reset.withFetchWord 16 0x76A2) = some (.luma 2 (-1) (-2)) := by decide

/-! ## Hash and deltas -/

/-- V1. -/
theorem test_hash :
    hashOf ⟨255, 0, 0, 128⟩ = 61 ∧ hashOf ⟨200, 100, 50, 255⟩ = 31 ∧ hashOf ⟨128, 64, 32, 16⟩ = 16
      ∧ hashOf ⟨7, 8, 9, 10⟩ = 42 ∧ hashOf ⟨255, 255, 255, 255⟩ = 38 := by decide
/-- V4, wraparound. -/
theorem test_deltas : sdelta8 254 0 = -2 ∧ sdelta8 0 255 = 1 ∧ sdelta8 0 1 = -1 ∧ sdelta8 0 128 = -128 := by decide

/-! ## One step of each operation -/

/-- A 1x1 image at position 0, with a slot value for the pixel. -/
def onPixel (prev px slot : Pixel) (cap : Word64) : State :=
  { State.reset with
    phase := .scan, width := 1, height := 1, outcap := cap, wptr := 14, prev := prev
    cache := State.reset.cache.set (hashOf px).val slot (hashOf px).isLt
    inp := [(0, px.r), (1, px.g), (2, px.b), (3, px.a)] }

/-- The sentinel of a 1x1 image, with a run pending and a value in slot 0. -/
def onSentinel (prev slot0 : Pixel) (run cap : Word64) : State :=
  { onPixel prev prev prev cap with pos := 1, run := run, cache := State.reset.cache.set 0 slot0 }

/-- What the tests look at of a step's state. -/
structure Shown where
  phase : Phase
  pos : Nat
  prev : Pixel
  run : Nat
  aseen : Bool
  wptr : Nat
  err : ErrCode
  out : Memory
  deriving DecidableEq, Repr

/-- What a step leaves. -/
def shown (o : Host.Outcome State Fault Refusal) : Option Shown :=
  match o with
  | .next t => some ⟨t.phase, t.pos.toNat, t.prev, t.run.toNat, t.aseen, t.wptr.toNat, t.err, t.out⟩
  | .fault _ => none
  | .refused _ => none

/-- 10_state.md R26. -/
theorem test_start :
    shown (exec .start { State.reset with outcap := 14 }) = some ⟨.scan, 0, ⟨0, 0, 0, 255⟩, 0, false, 14, .none, []⟩ := by
  decide
/-- V9, OUTCAP 13. -/
theorem test_start_faults :
    shown (exec .start { State.reset with outcap := 13 })
      = some ⟨.error, 0, ⟨0, 0, 0, 255⟩, 0, false, 14, .alloc, []⟩ := by decide
/-- P1, step 1. -/
theorem test_runacc :
    shown (step (onPixel seed seed seed 40)) = some ⟨.scan, 1, seed, 1, false, 14, .none, []⟩ := by decide
/-- P4, steps 132 and 134. -/
theorem test_runemit :
    shown (step (onSentinel ⟨200, 100, 50, 255⟩ Pixel.zero 130 40))
        = some ⟨.scan, 1, ⟨200, 100, 50, 255⟩, 68, false, 15, .none, [(14, 0xFD)]⟩
      ∧ shown (step (onSentinel ⟨200, 100, 50, 255⟩ Pixel.zero 6 40))
        = some ⟨.hdr, 1, ⟨200, 100, 50, 255⟩, 0, false, 15, .none, [(14, 0xC5)]⟩ := by decide
/-- P8, step 4: the run is broken by a real pixel, whose alpha is noted. -/
theorem test_runemit_at_a_pixel :
    shown (step { onPixel seed Pixel.zero Pixel.zero 40 with run := 1 })
      = some ⟨.scan, 0, seed, 0, true, 15, .none, [(14, 0xC0)]⟩ := by decide
/-- V3 d: the hit wins over RGBA. -/
theorem test_index :
    shown (step (onPixel ⟨100, 100, 100, 255⟩ ⟨7, 8, 9, 10⟩ ⟨7, 8, 9, 10⟩ 40))
      = some ⟨.scan, 1, ⟨7, 8, 9, 10⟩, 0, true, 15, .none, [(14, 0x2A)]⟩ := by decide
/-- V7 a: the artifact. -/
theorem test_index_artifact :
    shown (step (onSentinel ⟨11, 12, 10, 255⟩ Pixel.zero 0 40))
      = some ⟨.hdr, 1, Pixel.zero, 0, false, 15, .none, [(14, 0)]⟩ := by decide
/-- V4: wraparound, alpha 7. -/
theorem test_diff :
    shown (step (onPixel ⟨0, 255, 1, 7⟩ ⟨254, 0, 0, 7⟩ Pixel.zero 40))
      = some ⟨.scan, 1, ⟨254, 0, 0, 7⟩, 0, true, 15, .none, [(14, 0x4D)]⟩ := by decide
/-- V5: all fields greatest, then the least capacity that fits and one below (V9, OUTCAP 15). -/
theorem test_luma :
    shown (step (onPixel ⟨100, 100, 100, 255⟩ ⟨138, 131, 138, 255⟩ Pixel.zero 16))
        = some ⟨.scan, 1, ⟨138, 131, 138, 255⟩, 0, false, 16, .none, [(14, 0xBF), (15, 0xFF)]⟩
      ∧ shown (step (onPixel seed ⟨10, 10, 10, 255⟩ Pixel.zero 15)) = some ⟨.error, 0, seed, 0, false, 14, .alloc, []⟩ := by
  decide
/-- V5: one beyond the LUMA range. -/
theorem test_rgb :
    shown (step (onPixel ⟨100, 100, 100, 255⟩ ⟨139, 132, 139, 255⟩ Pixel.zero 40))
      = some ⟨.scan, 1, ⟨139, 132, 139, 255⟩, 0, false, 18, .none, [(14, 0xFE), (15, 0x8B), (16, 0x84), (17, 0x8B)]⟩ := by
  decide
/-- V6: alpha differs, the colour does not. -/
theorem test_rgba :
    shown (step (onPixel ⟨100, 100, 100, 255⟩ ⟨100, 100, 100, 254⟩ Pixel.zero 40))
      = some ⟨.scan, 1, ⟨100, 100, 100, 254⟩, 0, true, 19, .none,
          [(14, 0xFF), (15, 0x64), (16, 0x64), (17, 0x64), (18, 0xFE)]⟩ := by decide
/-- V7 e: an RGBA artifact, which leaves ASEEN clear. -/
theorem test_rgba_artifact :
    shown (step (onSentinel ⟨1, 0, 56, 255⟩ ⟨1, 0, 56, 255⟩ 0 40))
      = some ⟨.hdr, 1, Pixel.zero, 0, false, 19, .none, [(14, 0xFF), (15, 0), (16, 0), (17, 0), (18, 0)]⟩ := by decide
/-- V8: `0x01020304` by `0x0A0B0C0D`, ASEEN 1. -/
theorem test_header :
    shown (step { State.reset with
        phase := .hdr, width := 0x01020304, height := 0x0A0B0C0D, aseen := true, wptr := 14, outcap := 40 })
      = some ⟨.fin, 0, Pixel.zero, 0, true, 14, .none,
          [(0, 0x71), (1, 0x6F), (2, 0x69), (3, 0x66), (4, 1), (5, 2), (6, 3), (7, 4), (8, 0x0A), (9, 0x0B), (10, 0x0C),
           (11, 0x0D), (12, 4), (13, 0)]⟩ := by decide
/-- P1, step 4, and V9 with OUTCAP 26. -/
theorem test_endmark :
    shown (step { State.reset with phase := .fin, wptr := 15, outcap := 23 })
        = some ⟨.done, 0, Pixel.zero, 0, false, 23, .none,
            [(15, 0), (16, 0), (17, 0), (18, 0), (19, 0), (20, 0), (21, 0), (22, 1)]⟩
      ∧ shown (step { State.reset with phase := .fin, wptr := 19, outcap := 26 })
        = some ⟨.error, 0, Pixel.zero, 0, false, 19, .alloc, []⟩ := by decide

/-- V9: STATUS in SCAN, HDR, END, DONE, ERROR and after reset. -/
theorem test_status :
    readCsr .status { State.reset with phase := .scan } = 0x09 ∧ readCsr .status { State.reset with phase := .hdr } = 0x0A
      ∧ readCsr .status { State.reset with phase := .fin } = 0x0B
      ∧ readCsr .status { State.reset with phase := .done } = 0x04
      ∧ readCsr .status { State.reset with phase := .error, err := .alloc } = 0x15
      ∧ readCsr .status State.reset = 0 := by decide

/-- P2, the loop of 40_sequencer.md R82. -/
theorem test_encodeImage :
    encodeImage 2 1 0 [⟨10, 10, 10, 255⟩, ⟨11, 12, 10, 255⟩]
      = [0x71, 0x6F, 0x69, 0x66, 0, 0, 0, 2, 0, 0, 0, 1, 3, 0, 0xAA, 0x88, 0xA2, 0x76, 0, 0, 0, 0, 0, 0, 0, 0, 1] := by
  decide

/-! ## Witnesses: a state and operands that meet all hypotheses of a statement together -/

theorem witness_EncodedOperationDecodesBack :
    (Instr.runemit 62).wellFormed = true ∧ partOf (.runemit 62) = some .chunk
      ∧ (Instr.index 63).wellFormed = true ∧ partOf (.index 63) = some .chunk
      ∧ (Instr.diff (-2) 1 (-2)).wellFormed = true ∧ partOf (.diff (-2) 1 (-2)) = some .chunk
      ∧ (Instr.luma (-32) 7 (-8)).wellFormed = true ∧ partOf (.luma (-32) 7 (-8)) = some .chunk
      ∧ (Instr.header 0 0xFFFFFFFF 9 255).wellFormed = true ∧ partOf (.header 0 0xFFFFFFFF 9 255) = some .header
      ∧ partOf .endmark = some .endMark := by decide

theorem witness_DecodedBytesAreTheEncoding : decode .chunk [0xBF, 0xFF, 0x00] = .ok (.luma 31 7 7, [0x00]) := by decide

/-- Both ends of each range of R60. -/
theorem witness_FirstByteDeterminesTheChunk :
    (0x00#8).toNat ≤ 0x3F ∧ (0x3F#8).toNat ≤ 0x3F ∧ 0x40 ≤ (0x40#8).toNat ∧ (0x7F#8).toNat ≤ 0x7F
      ∧ 0x80 ≤ (0x80#8).toNat ∧ (0xBF#8).toNat ≤ 0xBF ∧ 0xC0 ≤ (0xC0#8).toNat ∧ (0xFD#8).toNat ≤ 0xFD
      ∧ (0xFE#8).toNat = 0xFE ∧ (0xFF#8).toNat = 0xFF := by decide

/-- The first bytes at the ends of the ranges, as 30_encoding.md R60 has them. -/
theorem test_first_byte_ends :
    decode .chunk [0x00] = .ok (.index 0, []) ∧ decode .chunk [0x3F] = .ok (.index 63, [])
      ∧ decode .chunk [0x40] = .ok (.diff (-2) (-2) (-2), []) ∧ decode .chunk [0x7F] = .ok (.diff 1 1 1, [])
      ∧ decode .chunk [0x80, 0] = .ok (.luma (-32) (-8) (-8), []) ∧ decode .chunk [0xBF, 0] = .ok (.luma 31 (-8) (-8), [])
      ∧ decode .chunk [0xC0] = .ok (.runemit 1, []) ∧ decode .chunk [0xFD] = .ok (.runemit 62, []) := by decide

/-- Each of the seven operations is selected somewhere (V-tables and P-traces). -/
theorem witness_SelectIsTheDecisionTree :
    select seed (onPixel seed seed seed 40) = .runacc
      ∧ select Pixel.zero (onSentinel seed Pixel.zero 63 40) = .runemit 62
      ∧ select ⟨255, 0, 0, 255⟩ (onPixel seed ⟨255, 0, 0, 255⟩ ⟨255, 0, 0, 255⟩ 40) = .index 50
      ∧ select ⟨101, 101, 101, 255⟩ (onPixel ⟨100, 100, 100, 255⟩ ⟨101, 101, 101, 255⟩ Pixel.zero 40) = .diff 1 1 1
      ∧ select ⟨60, 68, 60, 255⟩ (onPixel ⟨100, 100, 100, 255⟩ ⟨60, 68, 60, 255⟩ Pixel.zero 40) = .luma (-32) (-8) (-8)
      ∧ select ⟨59, 67, 59, 255⟩ (onPixel ⟨100, 100, 100, 255⟩ ⟨59, 67, 59, 255⟩ Pixel.zero 40) = .rgb 59 67 59
      ∧ select ⟨101, 100, 100, 0⟩ (onPixel ⟨100, 100, 100, 255⟩ ⟨101, 100, 100, 0⟩ Pixel.zero 40) = .rgba 101 100 100 0 := by
  decide

theorem witness_PerformedOperandsFitTheirFields :
    current (onPixel ⟨100, 100, 100, 255⟩ ⟨60, 68, 60, 255⟩ Pixel.zero 40) = some (.luma (-32) (-8) (-8)) := by decide

/-- Both ends of the green range. -/
theorem witness_WrappedLumaDifferenceDecidesAlike :
    (-32 ≤ sdelta8 68 100 ∧ sdelta8 68 100 ≤ 31) ∧ (-32 ≤ sdelta8 131 100 ∧ sdelta8 131 100 ≤ 31) := by decide

theorem witness_HashIgnoresTheSumWidth : 6 ≤ 6 := by decide

/-- No action pending and a `yield`; a scan step, HDR, END, and the three phases of rest. -/
theorem witness_StepRunsTheSelectedOperation :
    (onPixel seed seed seed 40).host = [] ∧ (onPixel seed seed seed 40).phase = .scan
      ∧ cur (onPixel seed seed seed 40) = some seed
      ∧ (∃ s : State, s.host = [.yield] ∧ s.phase = .hdr) ∧ (∃ s : State, s.host = [] ∧ s.phase = .fin)
      ∧ ∃ s : State, s.host = [] ∧ s.phase = .error :=
  ⟨rfl, rfl, by decide, ⟨{ State.reset with host := [.yield], phase := .hdr }, rfl, rfl⟩,
    ⟨{ State.reset with phase := .fin }, rfl, rfl⟩, ⟨{ State.reset with phase := .error }, rfl, rfl⟩⟩

/-- OUTCAP at 14, below it, and a start from ERROR. -/
theorem witness_StartGivesTheInitialState :
    (∃ s : State, busy s = false ∧ 14 ≤ s.outcap.toNat) ∧ ∃ s : State, s.phase = .error ∧ busy s = false ∧ s.outcap.toNat < 14 :=
  ⟨⟨{ State.reset with outcap := 14 }, rfl, by decide⟩, ⟨{ State.reset with phase := .error, outcap := 13 }, rfl, rfl, by decide⟩⟩

theorem witness_RunaccFoldsThePixel :
    ∃ s : State, s.phase = .scan ∧ s.pos.toNat < npix s ∧ cur s = some s.prev :=
  ⟨onPixel seed seed seed 40, rfl, by decide, by decide⟩

/-- A full chunk at the sentinel in the last byte, and a flush by a real pixel that does not fit. -/
theorem witness_RunemitWritesOneRunChunk :
    (∃ s : State, s.phase = .scan ∧ cur s = some Pixel.zero ∧ sentinel s = true ∧ s.run.toNat = 62
        ∧ s.wptr.toNat + 1 = s.outcap.toNat)
      ∧ ∃ s : State, s.phase = .scan ∧ cur s = some Pixel.zero ∧ Pixel.zero ≠ s.prev ∧ s.run.toNat = 1
        ∧ s.outcap.toNat < s.wptr.toNat + 1 :=
  ⟨⟨onSentinel seed Pixel.zero 62 15, rfl, by decide, by decide, rfl, by decide⟩,
    ⟨{ onPixel seed Pixel.zero Pixel.zero 14 with run := 1 }, rfl, by decide, by decide, rfl, by decide⟩⟩

theorem witness_IndexWritesTheSlot :
    (∃ s : State, reachesChunkTests Pixel.zero s ∧ s.cache.get (hashOf Pixel.zero) = Pixel.zero
        ∧ s.wptr.toNat + 1 = s.outcap.toNat)
      ∧ ∃ s : State, reachesChunkTests ⟨7, 8, 9, 10⟩ s ∧ s.cache.get (hashOf ⟨7, 8, 9, 10⟩) = ⟨7, 8, 9, 10⟩
        ∧ s.outcap.toNat < s.wptr.toNat + 1 :=
  ⟨⟨onSentinel seed Pixel.zero 0 15, ⟨rfl, by decide, .inl (by decide), rfl⟩, by decide, by decide⟩,
    ⟨onPixel seed ⟨7, 8, 9, 10⟩ ⟨7, 8, 9, 10⟩ 14, ⟨rfl, by decide, .inr (by decide), rfl⟩, by decide, by decide⟩⟩

/-- Deltas at the ends of the range, in the last byte and one byte short. -/
theorem witness_DiffWritesOneByte :
    ∃ s t : State, reachesDeltaTests ⟨98, 101, 98, 255⟩ s
      ∧ inDiffRange (sdelta8 98 s.prev.r) (sdelta8 101 s.prev.g) (sdelta8 98 s.prev.b) ∧ s.wptr.toNat + 1 = s.outcap.toNat
      ∧ reachesDeltaTests ⟨98, 101, 98, 255⟩ t
      ∧ inDiffRange (sdelta8 98 t.prev.r) (sdelta8 101 t.prev.g) (sdelta8 98 t.prev.b) ∧ t.outcap.toNat < t.wptr.toNat + 1 :=
  ⟨onPixel ⟨100, 100, 100, 255⟩ ⟨98, 101, 98, 255⟩ Pixel.zero 15, onPixel ⟨100, 100, 100, 255⟩ ⟨98, 101, 98, 255⟩ Pixel.zero 14,
    ⟨⟨rfl, by decide, .inr (by decide), rfl⟩, by decide, rfl⟩, by unfold inDiffRange; decide, by decide,
    ⟨⟨rfl, by decide, .inr (by decide), rfl⟩, by decide, rfl⟩, by unfold inDiffRange; decide, by decide⟩

theorem witness_LumaWritesTwoBytes :
    ∃ s t : State, reachesDeltaTests ⟨138, 131, 138, 255⟩ s
      ∧ ¬ inDiffRange (sdelta8 138 s.prev.r) (sdelta8 131 s.prev.g) (sdelta8 138 s.prev.b)
      ∧ inLumaRange (sdelta8 138 s.prev.r) (sdelta8 131 s.prev.g) (sdelta8 138 s.prev.b) ∧ s.wptr.toNat + 2 = s.outcap.toNat
      ∧ reachesDeltaTests ⟨138, 131, 138, 255⟩ t
      ∧ ¬ inDiffRange (sdelta8 138 t.prev.r) (sdelta8 131 t.prev.g) (sdelta8 138 t.prev.b)
      ∧ inLumaRange (sdelta8 138 t.prev.r) (sdelta8 131 t.prev.g) (sdelta8 138 t.prev.b) ∧ t.outcap.toNat < t.wptr.toNat + 2 :=
  ⟨onPixel ⟨100, 100, 100, 255⟩ ⟨138, 131, 138, 255⟩ Pixel.zero 16, onPixel ⟨100, 100, 100, 255⟩ ⟨138, 131, 138, 255⟩ Pixel.zero 15,
    ⟨⟨rfl, by decide, .inr (by decide), rfl⟩, by decide, rfl⟩, by unfold inDiffRange; decide, by unfold inLumaRange; decide,
    by decide, ⟨⟨rfl, by decide, .inr (by decide), rfl⟩, by decide, rfl⟩, by unfold inDiffRange; decide,
    by unfold inLumaRange; decide, by decide⟩

theorem witness_RgbWritesFourBytes :
    ∃ s t : State, reachesDeltaTests ⟨139, 132, 139, 255⟩ s
      ∧ ¬ inDiffRange (sdelta8 139 s.prev.r) (sdelta8 132 s.prev.g) (sdelta8 139 s.prev.b)
      ∧ ¬ inLumaRange (sdelta8 139 s.prev.r) (sdelta8 132 s.prev.g) (sdelta8 139 s.prev.b) ∧ s.wptr.toNat + 4 = s.outcap.toNat
      ∧ reachesDeltaTests ⟨139, 132, 139, 255⟩ t
      ∧ ¬ inDiffRange (sdelta8 139 t.prev.r) (sdelta8 132 t.prev.g) (sdelta8 139 t.prev.b)
      ∧ ¬ inLumaRange (sdelta8 139 t.prev.r) (sdelta8 132 t.prev.g) (sdelta8 139 t.prev.b) ∧ t.outcap.toNat < t.wptr.toNat + 4 :=
  ⟨onPixel ⟨100, 100, 100, 255⟩ ⟨139, 132, 139, 255⟩ Pixel.zero 18, onPixel ⟨100, 100, 100, 255⟩ ⟨139, 132, 139, 255⟩ Pixel.zero 17,
    ⟨⟨rfl, by decide, .inr (by decide), rfl⟩, by decide, rfl⟩, by unfold inDiffRange; decide, by unfold inLumaRange; decide,
    by decide, ⟨⟨rfl, by decide, .inr (by decide), rfl⟩, by decide, rfl⟩, by unfold inDiffRange; decide,
    by unfold inLumaRange; decide, by decide⟩

/-- At a real pixel, in the last bytes; and the artifact of V7 e, one byte short. -/
theorem witness_RgbaWritesFiveBytes :
    ∃ s t : State, reachesChunkTests ⟨101, 100, 100, 0⟩ s
      ∧ s.cache.get (hashOf ⟨101, 100, 100, 0⟩) ≠ ⟨101, 100, 100, 0⟩ ∧ (0 : Byte) ≠ s.prev.a ∧ s.wptr.toNat + 5 = s.outcap.toNat
      ∧ reachesChunkTests Pixel.zero t ∧ t.cache.get (hashOf Pixel.zero) ≠ Pixel.zero ∧ (0 : Byte) ≠ t.prev.a
      ∧ t.outcap.toNat < t.wptr.toNat + 5 :=
  ⟨onPixel ⟨100, 100, 100, 255⟩ ⟨101, 100, 100, 0⟩ Pixel.zero 19, onSentinel ⟨1, 0, 56, 255⟩ ⟨1, 0, 56, 255⟩ 0 18,
    ⟨rfl, by decide, .inr (by decide), rfl⟩, by decide, by decide, by decide,
    ⟨rfl, by decide, .inl (by decide), rfl⟩, by decide, by decide, by decide⟩

theorem witness_HeaderIsWrittenAtOffsetZero : ∃ s : State, s.phase = .hdr := ⟨{ State.reset with phase := .hdr }, rfl⟩

theorem witness_EndmarkFinishesTheStream :
    ∃ s t : State, s.phase = .fin ∧ s.wptr.toNat + 8 = s.outcap.toNat ∧ t.phase = .fin ∧ t.outcap.toNat < t.wptr.toNat + 8 :=
  ⟨{ State.reset with phase := .fin, wptr := 15, outcap := 23 }, { State.reset with phase := .fin, wptr := 15, outcap := 22 },
    rfl, by decide, rfl, by decide⟩

/-- 41_run.md, the run of 130: two full chunks and one of 6; and a run of 62, with no short chunk. -/
theorem witness_BrokenRunIsSplitIntoFullChunks :
    (∃ s : State, s.host = [] ∧ s.phase = .scan ∧ cur s = some Pixel.zero ∧ sentinel s = true ∧ s.run.toNat = 62 * 2 + 6
        ∧ s.wptr.toNat + (130 + 61) / 62 ≤ s.outcap.toNat)
      ∧ ∃ s : State, s.host = [] ∧ s.phase = .scan ∧ cur s = some Pixel.zero ∧ Pixel.zero ≠ s.prev ∧ s.run.toNat = 62 * 1 + 0
        ∧ s.wptr.toNat + (62 + 61) / 62 ≤ s.outcap.toNat :=
  ⟨⟨onSentinel seed Pixel.zero 130 17, rfl, rfl, by decide, by decide, rfl, by decide⟩,
    ⟨{ onPixel seed Pixel.zero Pixel.zero 15 with run := 62 }, rfl, rfl, by decide, by decide, rfl, by decide⟩⟩

/-- With slot 0 zero and, V7 e, with another pixel in it. -/
theorem witness_SentinelArtifactEndsTheScan :
    ∃ s t : State, s.phase = .scan ∧ sentinel s = true ∧ s.run = 0 ∧ s.cache.get 0 = Pixel.zero
      ∧ t.phase = .scan ∧ sentinel t = true ∧ t.run = 0 ∧ t.cache.get 0 ≠ Pixel.zero :=
  ⟨onSentinel seed Pixel.zero 0 40, onSentinel ⟨1, 0, 56, 255⟩ ⟨1, 0, 56, 255⟩ 0 40, rfl, by decide, rfl, by decide, rfl,
    by decide, rfl, by decide⟩

theorem witness_NonStoringFrame :
    (∃ t, exec .start State.reset = .next t) ∧ ∃ t, exec .runacc (onPixel seed seed seed 40) = .next t :=
  ⟨⟨_, rfl⟩, ⟨_, rfl⟩⟩

theorem witness_PixelChunkFrame :
    isPixelChunk (.index 42) = true
      ∧ ∃ t, exec (.index 42) (onPixel seed ⟨7, 8, 9, 10⟩ ⟨7, 8, 9, 10⟩ 40) = .next t ∧ t.phase = .scan :=
  ⟨rfl, ⟨_, rfl, rfl⟩⟩

theorem witness_RunemitFrame : ∃ t, exec (.runemit 62) (onSentinel seed Pixel.zero 63 40) = .next t ∧ t.phase = .scan :=
  ⟨_, rfl, rfl⟩

theorem witness_FramingFrame :
    (∃ t, exec (.header 0 0 3 0) { State.reset with phase := .hdr } = .next t)
      ∧ ∃ t, exec .endmark { State.reset with phase := .fin, outcap := 8 } = .next t ∧ t.phase = .done :=
  ⟨⟨_, rfl⟩, ⟨_, rfl, rfl⟩⟩

/-- Both sides: a chunk that does not fit, and one that does. -/
theorem witness_AllocIsRaisedExactlyWhenBytesDoNotFit :
    (∃ t, exec (.index 42) (onPixel seed ⟨7, 8, 9, 10⟩ ⟨7, 8, 9, 10⟩ 14) = .next t ∧ t.phase = .error)
      ∧ (∃ t, exec (.index 42) (onPixel seed ⟨7, 8, 9, 10⟩ ⟨7, 8, 9, 10⟩ 15) = .next t ∧ t.phase = .scan)
      ∧ ∃ t, exec .start { State.reset with outcap := 13 } = .next t ∧ t.phase = .error :=
  ⟨⟨_, rfl, rfl⟩, ⟨_, rfl, rfl⟩, ⟨_, rfl, rfl⟩⟩

theorem witness_FaultEntryIsPrecise :
    (∃ s t : State, current s = some .endmark ∧ s.outcap.toNat < s.wptr.toNat + (encode .endmark).length
        ∧ exec .endmark s = .next t ∧ t.phase = .error ∧ t.err = .alloc)
      ∧ ∃ s t : State, busy s = false ∧ s.outcap.toNat < 14 ∧ exec .start s = .next t :=
  ⟨⟨{ State.reset with phase := .fin, wptr := 19, outcap := 26 }, _, rfl, by decide, rfl, rfl, rfl⟩,
    ⟨{ State.reset with outcap := 13 }, _, rfl, by decide, rfl⟩⟩

/-- Only a state that no run reaches has ERR = 2. -/
theorem witness_IoErrorIsNeverSet :
    ∃ t, step { State.reset with phase := .error, err := .io } = .next t ∧ t.err = .io := ⟨_, rfl, rfl⟩

theorem witness_OnlyStartOrResetLeavesRest :
    ∃ s t : State, busy s = false ∧ step s = .next t ∧ t.phase ≠ s.phase :=
  ⟨{ State.reset with host := [.write .ctrl 1] }, _, rfl, rfl, by decide⟩

theorem witness_UnselectedOperationIsRefused :
    (∃ s : State, current s ≠ some (.index 0) ∧ s.phase = .scan ∧ cur s = none ∧ isPixelChunk (.index 0) = true)
      ∧ current (onPixel seed seed seed 40) ≠ some (.index 53) ∧ cur (onPixel seed seed seed 40) ≠ none :=
  ⟨⟨{ onPixel seed seed seed 40 with inp := [] }, by decide, rfl, by decide, rfl⟩, by decide, by decide⟩

/-- P1: a 1x1 image of the seed, in IN, with exactly the room its 23 bytes need. -/
def oneSeedPixel : State :=
  { State.reset with width := 1, height := 1, outcap := 23, inp := [(0, 0), (1, 0), (2, 0), (3, 255)] }

theorem oneSeedPixel_provided : provided oneSeedPixel := by
  intro i hi
  have : i = 0 := by
    have h : npix oneSeedPixel = 1 := by decide
    omega
  subst this
  decide

theorem witness_StepStopsOnlyOnABrokenContract :
    (oneSeedPixel.host = [] ∧ provided oneSeedPixel)
      ∧ (∃ r, step { onPixel seed seed seed 40 with inp := [] } = .refused r)
      ∧ ∃ f, step { onPixel seed seed seed 40 with host := [.placeIn 0 7] } = .fault f :=
  ⟨⟨rfl, oneSeedPixel_provided⟩, ⟨_, rfl⟩, ⟨_, rfl⟩⟩

theorem witness_CtrlAndStatusFields :
    (1 : Word64).extractLsb' 0 1 = 1#1 ∧ (2 : Word64).extractLsb' 0 1 = 0#1 ∧ busy State.reset = false
      ∧ busy (onPixel seed seed seed 40) = true := by decide

/-- BUSY; at rest; a step that writes a register while BUSY; a step at rest that writes another one. -/
theorem witness_ConfigurationChangesOnlyAtRest :
    busy (onPixel seed seed seed 40) = true ∧ busy State.reset = false ∧ (2 : Word64).extractLsb' 0 1 = 0#1
      ∧ (∃ s t : State, step s = .next t ∧ busy s = true ∧ s.host = [.write .width 5])
      ∧ ∃ s t : State, step s = .next t ∧ busy s = false ∧ s.host = [.write .height 5] ∧ t.height = 5
        ∧ (∀ v rest, s.host ≠ .write .width v :: rest) ∧ (∀ rest, s.host ≠ .reset :: rest) :=
  ⟨rfl, rfl, by decide, ⟨{ onPixel seed seed seed 40 with host := [.write .width 5] }, _, rfl, rfl, rfl⟩,
    ⟨{ State.reset with host := [.write .height 5] }, _, rfl, rfl, rfl, by decide, by simp, by simp⟩⟩

/-- 10_state.md R23: a configuration write while BUSY has no effect. -/
theorem test_busy_write_ignored :
    writeCsr .outcap 7 (onPixel seed seed seed 40) = .next (onPixel seed seed seed 40) := rfl

theorem witness_ResultRegistersReadInDone : ∃ s t : State, s.phase = .done ∧ t.phase ≠ .done :=
  ⟨{ State.reset with phase := .done }, State.reset, rfl, by decide⟩

theorem witness_ResetAbandonsTheEncode : ∃ s : State, s.host = [.reset] ∧ busy s = true :=
  ⟨{ onPixel seed seed seed 40 with host := [.reset] }, rfl, rfl⟩

theorem witness_HostMemoryAccessOwnership :
    (∃ s : State, busy s = true ∧ s.host = [.placeOut 0 7])
      ∧ (∃ s : State, busy s = false ∧ 2 ^ 66 - 1 < 2 ^ 66 ∧ s.host = [.placeIn (2 ^ 66 - 1) 7])
      ∧ ∃ s : State, busy s = false ∧ 2 ^ 64 - 1 < 2 ^ 64 ∧ s.host = [.placeOut (2 ^ 64 - 1) 7] :=
  ⟨⟨{ onPixel seed seed seed 40 with host := [.placeOut 0 7] }, rfl, rfl⟩,
    ⟨{ State.reset with host := [.placeIn (2 ^ 66 - 1) 7] }, rfl, by norm_num, rfl⟩,
    ⟨{ State.reset with host := [.placeOut (2 ^ 64 - 1) 7] }, rfl, by norm_num, rfl⟩⟩

/-- A busy state that meets the invariant: P8 after step 3, but for the first pixel, with a run pending. -/
def midScan : State :=
  { State.reset with
    phase := .scan, width := 2, height := 1, outcap := 40, pos := 1, run := 1, wptr := 14, prev := seed
    cache := State.reset.cache.set 53 seed
    inp := [(0, 0), (1, 0), (2, 0), (3, 255), (4, 0), (5, 0), (6, 0), (7, 0)] }

theorem midScan_inv : Inv midScan where
  inWf := by decide
  outWf := by decide
  errCode := rfl
  bounds := by decide
  prevCached := by decide
  slots := by decide
  pendingRun := by
    intro _ j _ h
    have : j = 0 := by
      have h1 : midScan.pos.toNat = 1 := by decide
      omega
    subst this
    decide
  scanOver := by decide
  chunksWritten := by
    intro _ a h1 h2
    have h3 : midScan.wptr.toNat = 14 := by decide
    omega
  headerWritten := fun h => absurd h (by decide)
  doneWritten := fun h => absurd h (by decide)

theorem midScan_provided : provided midScan := by
  intro i hi
  have : i = 0 ∨ i = 1 := by
    have h : npix midScan = 2 := by decide
    omega
  rcases this with rfl | rfl <;> decide

theorem witness_StepKeepsTheInvariant : Inv midScan ∧ busy midScan = true ∧ ∃ t, step midScan = .next t :=
  ⟨midScan_inv, rfl, ⟨_, rfl⟩⟩

/-- START; a real pixel with alpha 0 in a flush step (P8, step 4). -/
theorem witness_AlphaSeenFollowsRealPixels :
    (∃ t, exec .start State.reset = .next t ∧ busy State.reset = false)
      ∧ midScan.host = [] ∧ busy midScan = true ∧ midScan.pos.toNat ≤ npix midScan
      ∧ ∃ t, step midScan = .next t ∧ t.phase ≠ .error ∧ cur midScan = some Pixel.zero ∧ t.aseen = true :=
  ⟨⟨_, rfl, rfl⟩, rfl, rfl, by decide, ⟨_, rfl, by decide, by decide, by decide⟩⟩

/-- RUNACC, RUNEMIT, a chunk at a real pixel and at the sentinel. -/
theorem witness_ProgramCounterMoves :
    (current (onPixel seed seed seed 40) = some .runacc ∧ ∃ t, step (onPixel seed seed seed 40) = .next t ∧ t.phase ≠ .error)
      ∧ (current midScan = some (.runemit 1) ∧ ∃ t, step midScan = .next t ∧ t.phase ≠ .error)
      ∧ (current (onSentinel seed Pixel.zero 0 40) = some (.index 0)
          ∧ ∃ t, step (onSentinel seed Pixel.zero 0 40) = .next t ∧ t.phase ≠ .error) :=
  ⟨⟨by decide, _, rfl, by decide⟩, ⟨by decide, _, rfl, by decide⟩, ⟨by decide, _, rfl, by decide⟩⟩

theorem witness_BlockWritesOnlyWithinOut :
    Inv midScan ∧ midScan.host = [] ∧ current midScan = some (.runemit 1) ∧ ∃ t, step midScan = .next t ∧ t.phase ≠ .error :=
  ⟨midScan_inv, rfl, by decide, _, rfl, by decide⟩

theorem witness_SomeEncodingsAreNeverEmitted : Inv midScan ∧ current midScan = some (.runemit 1) :=
  ⟨midScan_inv, by decide⟩

theorem witness_PlacedStatePerformsTheOperation :
    (Instr.luma (-32) (-8) 7).wellFormed = true ∧ ¬ inDiffRange (-8 + -32) (-32) (7 + -32)
      ∧ (Instr.diff 0 0 0).wellFormed = true := by
  unfold inDiffRange; decide

/-- P1, at the boundary: `OUTLEN = OUTCAP = 23`. -/
theorem witness_EncodeLeavesTheReferenceStream :
    busy oneSeedPixel = false ∧ oneSeedPixel.host = [] ∧ 1 ≤ oneSeedPixel.width.toNat ∧ 1 ≤ oneSeedPixel.height.toNat
      ∧ provided oneSeedPixel ∧ (reference oneSeedPixel).length = oneSeedPixel.outcap.toNat
      ∧ ∃ t, exec .start oneSeedPixel = .next t :=
  ⟨rfl, rfl, by decide, by decide, oneSeedPixel_provided, by decide, _, rfl⟩

/-- P1: `NPIX + K + A + 2 = 1 + 1 + 0 + 2`. -/
theorem witness_EncodeTakesTheCountedSteps :
    busy oneSeedPixel = false ∧ oneSeedPixel.host = [] ∧ 1 ≤ oneSeedPixel.width.toNat ∧ 1 ≤ oneSeedPixel.height.toNat
      ∧ provided oneSeedPixel ∧ (reference oneSeedPixel).length ≤ oneSeedPixel.outcap.toNat
      ∧ (∃ t, exec .start oneSeedPixel = .next t)
      ∧ npix oneSeedPixel + runChunkCount (imageOf oneSeedPixel) + artifactCount (imageOf oneSeedPixel) + 2 = 4 :=
  ⟨rfl, rfl, by decide, by decide, oneSeedPixel_provided, by decide, ⟨_, rfl⟩, by decide⟩

/-- Both outcomes are possible: P1's stream does not fit in 22 bytes. -/
theorem witness_EncodeCompletesExactlyWhenItFits :
    busy oneSeedPixel = false ∧ oneSeedPixel.host = [] ∧ 1 ≤ oneSeedPixel.width.toNat ∧ 1 ≤ oneSeedPixel.height.toNat
      ∧ provided oneSeedPixel ∧ (∃ t, exec .start oneSeedPixel = .next t)
      ∧ (reference oneSeedPixel).length ≤ oneSeedPixel.outcap.toNat
      ∧ (22 : Word64).toNat < (reference { oneSeedPixel with outcap := 22 }).length :=
  ⟨rfl, rfl, by decide, by decide, oneSeedPixel_provided, ⟨_, rfl⟩, by decide, by decide⟩

theorem witness_EveryEncodeEnds : Inv midScan ∧ busy midScan = true ∧ midScan.host = [] ∧ provided midScan :=
  ⟨midScan_inv, rfl, rfl, midScan_provided⟩

/-- The same configuration and image, with other remains of earlier encodes. -/
theorem witness_EarlierEncodesLeaveNoTrace :
    ∃ s s' : State, busy s = false ∧ busy s' = false ∧ s.host = [] ∧ sameSurroundings s s' ∧ s ≠ s'
      ∧ (∃ t, exec .start s = .next t) ∧ ∃ t', exec .start s' = .next t' :=
  ⟨oneSeedPixel, { oneSeedPixel with phase := .done, wptr := 30, aseen := true, out := [(0, 7)] }, rfl, rfl, rfl,
    ⟨rfl, rfl, rfl, rfl, rfl, rfl⟩, by decide, ⟨_, rfl⟩, ⟨_, rfl⟩⟩

/-- P1 is DONE after four steps. -/
theorem witness_DoneHeaderDescribesTheImage :
    busy oneSeedPixel = false ∧ oneSeedPixel.host = [] ∧ 1 ≤ oneSeedPixel.width.toNat ∧ 1 ≤ oneSeedPixel.height.toNat
      ∧ provided oneSeedPixel
      ∧ ∃ t u : State, exec .start oneSeedPixel = .next t ∧ Host.Core.run core 4 t = .next u ∧ u.phase = .done :=
  ⟨rfl, rfl, by decide, by decide, oneSeedPixel_provided, _, _, rfl, rfl, rfl⟩

theorem witness_StreamLengthBounds : 1 ≤ [seed].length := by decide

end Sys2Proof.Tests
end

section
/-! Noninterference of encodes (10_state.md R25): the block's step reads no byte of OUT, and every byte of the stream
that the host reads was written after START. -/

namespace Sys2Proof.Machine

/-! ### The converse of the inversion of the block's step -/

theorem current_of_scan {s : State} {px : Pixel} (hp : s.phase = .scan) (hc : cur s = some px) :
    current s = some (select px s) := by
  simp [current, hp, hc]

theorem current_of_rest {s : State} (hb : busy s = false) : current s = none := by
  cases hp : s.phase <;> simp [busy, current, hp] at hb ⊢

theorem blockStep_of_current {s : State} {i : Instr} (h : current s = some i) : blockStep s = exec i s := by
  simp [blockStep, h]

/-- A scan move is what the selected operation does. -/
theorem ScanMove.exec_select {s t : State} {px : Pixel} (h : ScanMove s px t) (hp : s.phase = .scan)
    (hc : cur s = some px) : exec (select px s) s = .next t := by
  cases h with
  | acc hs heq =>
    have hsel : select px s = .runacc := by simp [select, hs, heq]
    rw [hsel]
    exact scanOp_of_some (body := accBody) hp hc hsel rfl
  | flush count hb hr hcount hf =>
    have hsel : select px s = .runemit count := by
      unfold select
      rw [if_neg (by rcases hb with h | h <;> simp [h]), if_pos hr, hcount]
    rw [hsel]
    exact scanOp_of_some hp hc hsel (runBody_eq_some_iff.mpr ⟨hf, rfl⟩)
  | chunk i hb hr hi hf =>
    have hsel : select px s = i := by rw [select_of_chunkTests hb hr, hi]
    rw [hsel, exec_pixelChunk (hi ▸ chunkFor_isPixelChunk _ _ _)]
    exact scanOp_of_some hp hc hsel (chunkBody_eq_some_iff.mpr ⟨hf, rfl⟩)

/-- The selected operation takes the fault when its bytes do not fit; RUNACC has none. -/
theorem exec_select_of_full {s : State} {px : Pixel} (hp : s.phase = .scan) (hc : cur s = some px)
    (hb : sentinel s = true ∨ px ≠ s.prev) (hf : s.outcap.toNat < s.wptr.toNat + (encode (select px s)).length) :
    exec (select px s) s = .next (raiseAlloc s) := by
  rcases select_cases px s with ⟨-, hs, heq⟩ | ⟨hsel, -, -⟩ | ⟨hsel, -, -⟩
  · rcases hb with h | h
    · simp [hs] at h
    · exact absurd heq h
  · rw [hsel] at hf ⊢
    exact scanOp_of_none hp hc hsel (runBody_eq_none_iff.mpr hf)
  · rw [exec_pixelChunk (hsel ▸ chunkFor_isPixelChunk _ _ _)]
    exact scanOp_of_none hp hc rfl (chunkBody_eq_none_iff.mpr hf)

/-- The converse of `blockStep_next`: `BlockMove` is the block's step exactly. -/
theorem BlockMove.blockStep_eq {s t : State} (h : BlockMove s t) : blockStep s = .next t := by
  cases h with
  | rest hb => simp [blockStep, current_of_rest hb, hb]
  | scan px t hp hc hm => rw [blockStep_of_current (current_of_scan hp hc), hm.exec_select hp hc]
  | scanFault px hp hc hb hf =>
    rw [blockStep_of_current (current_of_scan hp hc), exec_select_of_full hp hc hb hf]
  | header hp =>
    rw [blockStep_of_current (i := headerOf s) (by simp [current, hp])]
    simp [headerOf, exec, execHeader, hp]
  | endmark hp hf =>
    rw [blockStep_of_current (i := .endmark) (by simp [current, hp])]
    have hemit : emit (encode .endmark) s = some (appendBytes (encode .endmark) s) := emit_eq_some_iff.mpr ⟨hf, rfl⟩
    simp only [exec, execEndmark, hp, if_true, hemit]
  | endFault hp hf =>
    rw [blockStep_of_current (i := .endmark) (by simp [current, hp])]
    have hemit : emit (encode .endmark) s = none := emit_eq_none_iff.mpr hf
    simp only [exec, execEndmark, hp, if_true, hemit]

theorem run_succ_eq_next_iff {k : Nat} {s u : State} :
    Host.Core.run core (k + 1) s = .next u ↔ ∃ t, step s = .next t ∧ Host.Core.run core k t = .next u := by
  cases h : step s <;> simp [Host.Core.run, show core.step s = _ from h]

/-! ### The same step with another OUT space -/

/-- Another OUT space `m` shows the same stream as the state's own: the chunks below WPTR, and the header once it is
written. OUT may differ everywhere else. -/
structure SameStream (s : State) (m : Memory) : Prop where
  chunks : ∀ a, 14 ≤ a → a < s.wptr.toNat → m.read a = s.out.read a
  header : s.phase = .fin ∨ s.phase = .done → ∀ a < 14, m.read a = s.out.read a

/-- A store makes two spaces agree where it stores. -/
theorem Memory.read_writeBytes_congr {m m' : Memory} {a x : Nat} (vs : List Byte)
    (h : x < a ∨ a + vs.length ≤ x → m'.read x = m.read x) :
    (m'.writeBytes a vs).read x = (m.writeBytes a vs).read x := by
  rw [Memory.read_writeBytes, Memory.read_writeBytes]
  split_ifs with hx
  · rfl
  · exact h (by omega)

theorem wptr_add_toNat_le (w : Word64) (n : Nat) : (w + BitVec.ofNat 64 n).toNat ≤ w.toNat + n := by
  rw [BitVec.toNat_add, BitVec.toNat_ofNat]
  exact (Nat.mod_le _ _).trans (Nat.add_le_add_left (Nat.mod_le _ _) _)

/-- Spaces that agree below WPTR still agree below the new WPTR once the same bytes are appended to both. -/
theorem read_appendBytes_congr {s : State} {m : Memory} (bytes : List Byte) {a : Nat}
    (h : a < s.wptr.toNat → m.read a = s.out.read a) (ha : a < (appendBytes bytes s).wptr.toNat) :
    (m.writeBytes s.wptr.toNat bytes).read a = (appendBytes bytes s).out.read a := by
  have hle := wptr_add_toNat_le s.wptr bytes.length
  rw [appendBytes_wptr] at ha
  exact Memory.read_writeBytes_congr bytes fun hx => h (by omega)

/-- HEADER makes two spaces agree below offset 14, whatever was there (45_framing.md R135). -/
theorem read_writeHeader_congr (s : State) {m m' : Memory} {a : Nat} (h : 14 ≤ a → m'.read a = m.read a) :
    (m'.writeBytes 0 (encode (headerOf s))).read a = (m.writeBytes 0 (encode (headerOf s))).read a := by
  have hlen : (encode (headerOf s)).length = 14 := rfl
  exact Memory.read_writeBytes_congr _ fun hx => h (by omega)

theorem ScanMove.phase_cases {s t : State} {px : Pixel} (h : ScanMove s px t) (hp : s.phase = .scan) :
    t.phase = .scan ∨ t.phase = .hdr := by
  cases h with
  | acc => exact .inl hp
  | flush => simp only [takeFromRun_phase]; split_ifs <;> simp [hp]
  | chunk => simp only [nextPos_phase]; split_ifs <;> simp [hp]

/-- A scan move appends some bytes, and makes the same move whatever OUT holds. -/
theorem ScanMove.withOut {s t : State} {px : Pixel} (h : ScanMove s px t) (m : Memory) :
    ∃ bytes, t.wptr = (appendBytes bytes s).wptr ∧ t.out = (appendBytes bytes s).out
      ∧ ScanMove { s with out := m } px { t with out := m.writeBytes s.wptr.toNat bytes } := by
  cases h with
  | acc hs heq => exact ⟨[], by simp, rfl, .acc (s := { s with out := m }) hs heq⟩
  | flush count hb hr hc hf => exact ⟨_, rfl, rfl, .flush (s := { s with out := m }) count hb hr hc hf⟩
  | chunk i hb hr hi hf => exact ⟨_, rfl, rfl, .chunk (s := { s with out := m }) i hb hr hi hf⟩

/-- The fault leaves the stream as it was, and the header is no longer shown. -/
theorem SameStream.raiseAlloc {s : State} {m : Memory} (h : SameStream s m) : SameStream (raiseAlloc s) m :=
  ⟨h.chunks, by simp⟩

/-- The block's move commutes with a change of OUT outside the stream. -/
theorem BlockMove.withOut {s t : State} {m : Memory} (h : BlockMove s t) (hm : SameStream s m) :
    ∃ m', BlockMove { s with out := m } { t with out := m' } ∧ SameStream t m' := by
  cases h with
  | rest hb => exact ⟨m, .rest (s := { s with out := m }) hb, hm⟩
  | scan px t hp hc hmove =>
    obtain ⟨bytes, hw, ho, hmove'⟩ := hmove.withOut m
    refine ⟨_, .scan px _ hp hc hmove', fun a ha hlt => ?_, fun h => ?_⟩
    · rw [ho]
      exact read_appendBytes_congr bytes (hm.chunks a ha) (hw ▸ hlt)
    · rcases hmove.phase_cases hp with hp' | hp' <;> simp [hp'] at h
  | scanFault px hp hc hb hf => exact ⟨m, .scanFault (s := { s with out := m }) px hp hc hb hf, hm.raiseAlloc⟩
  | header hp =>
    refine ⟨_, .header (s := { s with out := m }) hp, fun a ha hlt => ?_, fun _ a ha => ?_⟩
    · exact read_writeHeader_congr s fun _ => hm.chunks a ha hlt
    · exact read_writeHeader_congr s (m := s.out) (m' := m) fun h14 => absurd ha (Nat.not_lt.mpr h14)
  | endmark hp hf =>
    refine ⟨_, .endmark (s := { s with out := m }) hp hf, fun a ha hlt => ?_, fun _ a ha => ?_⟩
    · exact read_appendBytes_congr (encode .endmark) (hm.chunks a ha) hlt
    · exact Memory.read_writeBytes_congr (encode .endmark) fun _ => hm.header (.inl hp) a ha
  | endFault hp hf => exact ⟨m, .endFault (s := { s with out := m }) hp hf, hm.raiseAlloc⟩

/-- So does every run of the block on its own. -/
theorem run_withOut {k : Nat} {s u : State} {m : Memory} (hh : s.host = []) (hm : SameStream s m)
    (h : Host.Core.run core k s = .next u) :
    ∃ m', Host.Core.run core k { s with out := m } = .next { u with out := m' } ∧ SameStream u m' := by
  induction k generalizing s m with
  | zero => cases h; exact ⟨m, rfl, hm⟩
  | succ k ih =>
    obtain ⟨t, ht, hrun⟩ := run_succ_eq_next_iff.mp h
    have hmove : BlockMove s t := blockStep_next (step_of_host_nil hh ▸ ht)
    obtain ⟨-, -, -, -, -, hhost⟩ := hmove.sameSurroundings
    obtain ⟨m₁, hmove₁, hm₁⟩ := hmove.withOut hm
    obtain ⟨m₂, hrun₂, hm₂⟩ := ih (hhost.trans hh) hm₁ hrun
    have hstep : step { s with out := m } = .next { t with out := m₁ } := by
      rw [step_of_host_nil (s := { s with out := m }) hh, hmove₁.blockStep_eq]
    exact ⟨m₂, run_succ_eq_next_iff.mpr ⟨_, hstep, hrun₂⟩, hm₂⟩

/-! ### The first and the last state -/

/-- What the host reads lies in the stream. -/
theorem SameStream.hostOut_eq {s : State} {m : Memory} (h : SameStream s m) (a : Nat) :
    hostOut { s with out := m } a = hostOut s a := by
  unfold hostOut
  split_ifs with hd
  · obtain ⟨hdone, hlt⟩ := hd
    by_cases ha : a < 14
    · exact h.header (.inr hdone) a ha
    · exact h.chunks a (by omega) hlt
  · rfl

/-- START leaves nothing of the state before it but the surroundings and OUT (10_state.md R25, R26). -/
theorem startState_congr {s s' : State} (h : sameSurroundings s s') :
    startState s' = { startState s with out := s'.out } := by
  obtain ⟨hw, hh, hc, ho, hi, hhost⟩ := h
  unfold startState
  rw [ho]
  split_ifs <;> simp [raiseAlloc, initEncode, hw, hh, hc, ho, hi, hhost]

/-- Right after START the stream is empty, so any OUT shows it. -/
theorem sameStream_startState (s : State) (m : Memory) : SameStream (startState s) m := by
  have hw : (startState s).wptr = 14 := by unfold startState; split_ifs <;> rfl
  have hp : (startState s).phase = .error ∨ (startState s).phase = .scan := by
    unfold startState; split_ifs <;> simp
  constructor
  · intro a ha hlt
    rw [hw] at hlt
    exact absurd hlt (by simpa using ha)
  · rcases hp with hp | hp <;> simp [hp]

theorem exec_start_of_rest {s : State} (hb : busy s = false) : exec .start s = .next (startState s) := by
  simp [exec, execStart, hb]

theorem startState_host (s : State) : (startState s).host = s.host := by
  unfold startState; split_ifs <;> rfl

/-- Settles O51: START makes two blocks that differ in OUT only, and a run commutes with changing OUT outside the
stream, which is all that the host reads. -/
theorem earlierEncodesLeaveNoTrace : Obligations.EarlierEncodesLeaveNoTrace := by
  unfold Obligations.EarlierEncodesLeaveNoTrace
  intro s s' t t' hb hb' hh hsame ht ht' k u hrun
  obtain rfl : startState s = t := by simpa [exec_start_of_rest hb] using ht
  obtain rfl : startState s' = t' := by simpa [exec_start_of_rest hb'] using ht'
  obtain ⟨m, hrun', hm⟩ := run_withOut ((startState_host s).trans hh) (sameStream_startState s s'.out) hrun
  exact ⟨m, startState_congr hsame ▸ hrun', hm.hostOut_eq⟩

end Sys2Proof.Machine
end

section
/-! The sequencer (40_sequencer.md R70, R75): what START leaves, and each operation's test in the decision tree. -/

namespace Sys2Proof.Machine

/-! ### START -/

/-- START in one equation: the initialised registers, with PHASE and ERR decided by OUTCAP (40_sequencer.md R70). -/
theorem startState_eq (s : State) :
    startState s = { initEncode s with
      phase := if s.outcap.toNat < 14 then .error else .scan
      err := if s.outcap.toNat < 14 then .alloc else .none } := by
  by_cases h : s.outcap.toNat < 14 <;> simp [startState, raiseAlloc, initEncode, h]

/-- 10_state.md R21: a 1 in bit 0 of CTRL performs START. -/
theorem writeCsr_ctrl_of_start {v : Word64} (h : v.extractLsb' 0 1 = 1#1) (s : State) :
    writeCsr .ctrl v s = exec .start s :=
  if_pos ⟨rfl, h⟩

/-- Settles O11: at rest START answers `startState`, and so does the write of CTRL; `startState_eq` names every
register, `initial_slot` every cache slot. -/
theorem startGivesTheInitialState : Obligations.StartGivesTheInitialState := by
  unfold Obligations.StartGivesTheInitialState
  intro s hb
  have hexec : exec .start s = .next (startState s) := exec_start_of_rest hb
  refine ⟨startState s, hexec, fun v hv => (writeCsr_ctrl_of_start hv s).trans hexec, ?_⟩
  rw [startState_eq]
  refine ⟨rfl, fun k hk => ?_, initial_slot 53, rfl, rfl, rfl, rfl, fun hroom => ?_, fun hfull => ?_, rfl,
    rfl, rfl, rfl, rfl, rfl, rfl⟩
  · exact (initial_slot k).trans (if_neg hk)
  · have hroom' : ¬ s.outcap.toNat < 14 := Nat.not_lt.mpr hroom
    exact ⟨if_neg hroom', if_neg hroom'⟩
  · exact ⟨if_pos hfull, if_pos hfull⟩

/-! ### The decision tree -/

/-- The decision tree as a relation: every operation with its own test and the failure of every earlier one
(40_sequencer.md R75). `hbreak` and `hrun` are the failure of tests 1 and 2. -/
inductive Selected (px : Pixel) (s : State) : Instr → Prop
  /-- Test 1, run continuation. -/
  | runacc (hreal : sentinel s = false) (hprev : px = s.prev) : Selected px s .runacc
  /-- Test 2, run flush. -/
  | runemit (hbreak : sentinel s = true ∨ px ≠ s.prev) (hpending : 0 < s.run.toNat) :
      Selected px s (.runemit (min s.run.toNat 62))
  /-- Test 3, cache hit. -/
  | index (hbreak : sentinel s = true ∨ px ≠ s.prev) (hrun : s.run = 0)
      (hhit : s.cache.get (hashOf px) = px) : Selected px s (.index (hashOf px).val)
  /-- Test 4, the alpha gate open and the deltas in the DIFF range. -/
  | diff (hbreak : sentinel s = true ∨ px ≠ s.prev) (hrun : s.run = 0)
      (hmiss : s.cache.get (hashOf px) ≠ px) (halpha : px.a = s.prev.a)
      (hdiff : inDiffRange (sdelta8 px.r s.prev.r) (sdelta8 px.g s.prev.g) (sdelta8 px.b s.prev.b)) :
      Selected px s (.diff (sdelta8 px.r s.prev.r) (sdelta8 px.g s.prev.g) (sdelta8 px.b s.prev.b))
  /-- Test 4, the deltas in the LUMA range only. -/
  | luma (hbreak : sentinel s = true ∨ px ≠ s.prev) (hrun : s.run = 0)
      (hmiss : s.cache.get (hashOf px) ≠ px) (halpha : px.a = s.prev.a)
      (hdiff : ¬ inDiffRange (sdelta8 px.r s.prev.r) (sdelta8 px.g s.prev.g) (sdelta8 px.b s.prev.b))
      (hluma : inLumaRange (sdelta8 px.r s.prev.r) (sdelta8 px.g s.prev.g) (sdelta8 px.b s.prev.b)) :
      Selected px s (.luma (sdelta8 px.g s.prev.g) (sdelta8 px.r s.prev.r - sdelta8 px.g s.prev.g)
        (sdelta8 px.b s.prev.b - sdelta8 px.g s.prev.g))
  /-- Test 4, the deltas in neither range. -/
  | rgb (hbreak : sentinel s = true ∨ px ≠ s.prev) (hrun : s.run = 0)
      (hmiss : s.cache.get (hashOf px) ≠ px) (halpha : px.a = s.prev.a)
      (hdiff : ¬ inDiffRange (sdelta8 px.r s.prev.r) (sdelta8 px.g s.prev.g) (sdelta8 px.b s.prev.b))
      (hluma : ¬ inLumaRange (sdelta8 px.r s.prev.r) (sdelta8 px.g s.prev.g) (sdelta8 px.b s.prev.b)) :
      Selected px s (.rgb px.r px.g px.b)
  /-- Test 5, the alpha gate shut. -/
  | rgba (hbreak : sentinel s = true ∨ px ≠ s.prev) (hrun : s.run = 0)
      (hmiss : s.cache.get (hashOf px) ≠ px) (halpha : px.a ≠ s.prev.a) :
      Selected px s (.rgba px.r px.g px.b px.a)

/-- The operation that `select` gives passed its test. -/
theorem selected_select (px : Pixel) (s : State) : Selected px s (select px s) := by
  obtain ⟨h, hreal, hprev⟩ | ⟨h, hbreak, hpending⟩ | ⟨h, hbreak, hrun⟩ := select_cases px s <;> rw [h]
  · exact .runacc hreal hprev
  · exact .runemit hbreak hpending
  · simp only [chunkFor]
    split_ifs with hhit halpha hdiff hluma
    · exact .index hbreak hrun hhit
    · exact .diff hbreak hrun hhit halpha ((diffFits_iff _ _ _).mp hdiff)
    · rw [diffFits_iff] at hdiff
      exact .luma hbreak hrun hhit halpha hdiff ((lumaFits_iff _ _ _).mp hluma)
    · rw [diffFits_iff] at hdiff
      rw [lumaFits_iff] at hluma
      exact .rgb hbreak hrun hhit halpha hdiff hluma
    · exact .rgba hbreak hrun hhit halpha

/-- The operation whose test holds, with every earlier one failing, is what `select` computes. -/
theorem Selected.select_eq {px : Pixel} {s : State} {i : Instr} (h : Selected px s i) : select px s = i := by
  cases h with
  | runacc hreal hprev => simp [select, hreal, hprev]
  | runemit hbreak hpending =>
    unfold select
    rw [if_neg (by rcases hbreak with h | h <;> simp [h]), if_pos hpending]
  | index hbreak hrun hhit => simp [select_of_chunkTests hbreak hrun, chunkFor, hhit]
  | diff hbreak hrun hmiss halpha hdiff =>
    simp [select_of_chunkTests hbreak hrun, chunkFor, hmiss, halpha, diffFits_iff, hdiff]
  | luma hbreak hrun hmiss halpha hdiff hluma =>
    simp [select_of_chunkTests hbreak hrun, chunkFor, hmiss, halpha, diffFits_iff, hdiff, lumaFits_iff, hluma]
  | rgb hbreak hrun hmiss halpha hdiff hluma =>
    simp [select_of_chunkTests hbreak hrun, chunkFor, hmiss, halpha, diffFits_iff, hdiff, lumaFits_iff, hluma]
  | rgba hbreak hrun hmiss halpha => simp [select_of_chunkTests hbreak hrun, chunkFor, hmiss, halpha]

theorem select_eq_iff {px : Pixel} {s : State} {i : Instr} : select px s = i ↔ Selected px s i :=
  ⟨fun h => h ▸ selected_select px s, Selected.select_eq⟩

/-- Settles O5: `select_eq_iff`, read one constructor at a time. -/
theorem selectIsTheDecisionTree : Obligations.SelectIsTheDecisionTree := by
  unfold Obligations.SelectIsTheDecisionTree
  intro px s
  have hrunNat : s.run.toNat = 0 ↔ s.run = 0 := by bv_omega
  simp only [select_eq_iff, hrunNat]
  refine ⟨?runacc, ?runemit, ?index, ?diff, ?luma, ?rgb, ?rgba⟩
  case runacc =>
    constructor
    · intro (.runacc hreal hprev)
      exact ⟨hreal, hprev⟩
    · intro ⟨hreal, hprev⟩
      exact .runacc hreal hprev
  case runemit =>
    intro count
    constructor
    · intro (.runemit hbreak hpending)
      exact ⟨hbreak, hpending, rfl⟩
    · rintro ⟨hbreak, hpending, rfl⟩
      exact .runemit hbreak hpending
  case index =>
    intro slot
    constructor
    · intro (.index hbreak hrun hhit)
      exact ⟨hbreak, hrun, hhit, rfl⟩
    · rintro ⟨hbreak, hrun, hhit, rfl⟩
      exact .index hbreak hrun hhit
  case diff =>
    intro dr dg db
    constructor
    · intro (.diff hbreak hrun hmiss halpha hdiff)
      exact ⟨hbreak, hrun, hmiss, halpha, rfl, rfl, rfl, hdiff⟩
    · rintro ⟨hbreak, hrun, hmiss, halpha, rfl, rfl, rfl, hdiff⟩
      exact .diff hbreak hrun hmiss halpha hdiff
  case luma =>
    intro dg drg dbg
    constructor
    · intro (.luma hbreak hrun hmiss halpha hdiff hluma)
      exact ⟨hbreak, hrun, hmiss, halpha, rfl, rfl, rfl, hdiff, hluma⟩
    · rintro ⟨hbreak, hrun, hmiss, halpha, rfl, rfl, rfl, hdiff, hluma⟩
      exact .luma hbreak hrun hmiss halpha hdiff hluma
  case rgb =>
    intro r g b
    constructor
    · intro (.rgb hbreak hrun hmiss halpha hdiff hluma)
      exact ⟨hbreak, hrun, hmiss, halpha, rfl, rfl, rfl, hdiff, hluma⟩
    · rintro ⟨hbreak, hrun, hmiss, halpha, rfl, rfl, rfl, hdiff, hluma⟩
      exact .rgb hbreak hrun hmiss halpha hdiff hluma
  case rgba =>
    intro r g b a
    constructor
    · intro (.rgba hbreak hrun hmiss halpha)
      exact ⟨hbreak, hrun, hmiss, halpha, rfl, rfl, rfl, rfl⟩
    · rintro ⟨hbreak, hrun, hmiss, halpha, rfl, rfl, rfl, rfl⟩
      exact .rgba hbreak hrun hmiss halpha

end Sys2Proof.Machine
end

section
/-! The run operations (41_run.md R90, R91): what RUNACC and RUNEMIT answer in the state that selects them. -/

namespace Sys2Proof.Machine

/-! ### RUNACC -/

/-- A pixel that continues the run is folded into it, whatever room OUT has (41_run.md R90). -/
theorem exec_runacc_of_continuation {s : State} {px : Pixel} (hp : s.phase = .scan) (hc : cur s = some px)
    (hreal : sentinel s = false) (hprev : px = s.prev) : exec .runacc s = .next (extendRun (noteAlpha px s)) := by
  rw [← (Selected.runacc hreal hprev).select_eq]
  exact (ScanMove.acc hreal hprev).exec_select hp hc

/-- At a real position the prologue of the step records an alpha below 255 (40_sequencer.md R74). -/
theorem noteAlpha_of_real {s : State} (px : Pixel) (hreal : sentinel s = false) :
    noteAlpha px s = { s with aseen := s.aseen || decide (px.a.toNat < 255) } := by
  simp [noteAlpha, hreal]

/-- Settles O12: the pixel continues the run, and at a real position the prologue notes its alpha. -/
theorem runaccFoldsThePixel : Obligations.RunaccFoldsThePixel := by
  unfold Obligations.RunaccFoldsThePixel
  intro s px hp hpos hc hprev
  have hreal : sentinel s = false := sentinel_of_lt hpos
  rw [exec_runacc_of_continuation hp hc hreal hprev, noteAlpha_of_real px hreal]
  rfl

/-! ### RUNEMIT -/

/-- The byte of a RUN chunk as a number: the tag above a count that fits its 6-bit field (30_encoding.md R55). -/
theorem encode_runemit {count : Nat} (h : count ≤ 62) :
    encode (.runemit count) = [BitVec.ofNat 8 (0xC0 + (count - 1))] := by
  have hbyte : ∀ c ≤ 62, encode (.runemit c) = [BitVec.ofNat 8 (0xC0 + (c - 1))] := by decide
  exact hbyte count h

/-- A chunk takes no more pixels than the run has, so RUN does not wrap. -/
theorem run_sub_toNat {run : Word64} {count : Nat} (h : count ≤ run.toNat) :
    (run - BitVec.ofNat 64 count).toNat = run.toNat - count := by
  bv_omega

/-- A chunk empties the run exactly when it covers it. -/
theorem run_sub_eq_zero_iff {run : Word64} {count : Nat} (h : count ≤ run.toNat) :
    run - BitVec.ofNat 64 count = 0 ↔ run.toNat = count := by
  bv_omega

/-- The end of a flush in the spec's terms: the scan ends when the chunk covers the run at the sentinel (41_run.md R91). -/
theorem takeFromRun_phase_of_scan {s : State} {count : Nat} (hp : s.phase = .scan) (h : count ≤ s.run.toNat) :
    (takeFromRun count s).phase = if s.run.toNat = count ∧ s.pos.toNat = npix s then .hdr else .scan := by
  simp only [takeFromRun_phase, run_sub_eq_zero_iff h, sentinel_iff, hp]

section
variable {s : State} {px : Pixel} {count : Nat} (hp : s.phase = .scan) (hc : cur s = some px)
  (hbreak : sentinel s = true ∨ px ≠ s.prev) (hpending : 0 < s.run.toNat) (hcount : count = min s.run.toNat 62)

include hbreak hpending hcount in
/-- A broken run is flushed with the greatest chunk it fills (40_sequencer.md R75, test 2). -/
theorem select_runemit : select px s = .runemit count :=
  hcount ▸ (Selected.runemit hbreak hpending).select_eq

include hp hc hbreak hpending hcount

/-- A flush whose byte fits appends the chunk and takes its pixels from the run (41_run.md R91). -/
theorem exec_runemit_of_room (hroom : s.wptr.toNat + 1 ≤ s.outcap.toNat) :
    exec (.runemit count) s
      = .next (takeFromRun count (appendBytes (encode (.runemit count)) (noteAlpha px s))) := by
  have hmove := (ScanMove.flush count hbreak hpending hcount hroom).exec_select hp hc
  rwa [select_runemit hbreak hpending hcount] at hmove

/-- A flush whose byte does not fit takes the fault (60_exceptions.md R156). -/
theorem exec_runemit_of_full (hfull : s.outcap.toNat < s.wptr.toNat + 1) :
    exec (.runemit count) s = .next (raiseAlloc s) := by
  have hsel := select_runemit hbreak hpending hcount
  have hfault := exec_select_of_full hp hc hbreak (hsel ▸ hfull)
  rwa [hsel] at hfault

end

/-- Settles O13: with room the step is `takeFromRun` after the append, field by field; without room it is the fault. -/
theorem runemitWritesOneRunChunk : Obligations.RunemitWritesOneRunChunk := by
  unfold Obligations.RunemitWritesOneRunChunk
  intro s px count hp hc hbreak hpending hcount
  constructor
  · intro hroom
    have hle : count ≤ s.run.toNat := hcount ▸ Nat.min_le_left _ _
    have hbyte : encode (.runemit count) = [BitVec.ofNat 8 (0xC0 + (count - 1))] :=
      encode_runemit (hcount ▸ Nat.min_le_right _ _)
    exact ⟨_, exec_runemit_of_room hp hc hbreak hpending hcount hroom, hbyte ▸ holds_writeBytes _ _ _,
      sameOutside_writeBytes _ _ _, ⟨rfl, rfl, rfl, rfl, rfl, rfl⟩, wptr_add_toNat hroom, run_sub_toNat hle,
      takeFromRun_phase_of_scan hp hle, rfl, rfl, rfl, rfl, rfl⟩
  · exact exec_runemit_of_full hp hc hbreak hpending hcount

end Sys2Proof.Machine
end

section
/-! INDEX (42_index.md R102): what a cache hit answers in the state that selects it. -/

namespace Sys2Proof.Machine

/-- On a cache hit test 3 gives INDEX with the slot number (40_sequencer.md R75). -/
theorem chunkFor_of_hit {cache : Vector Pixel 64} {prev px : Pixel} (hhit : cache.get (hashOf px) = px) :
    chunkFor cache prev px = .index (hashOf px).val :=
  if_pos hhit

/-- The byte of INDEX as a number: the tag is zero, so it is the slot number itself (30_encoding.md R52). -/
theorem encode_index (slot : Fin 64) : encode (.index slot.val) = [BitVec.ofNat 8 slot.val] := by
  revert slot
  decide

/-- On a cache hit Commit stores what the slot already holds. -/
theorem cache_set_of_hit {cache : Vector Pixel 64} {px : Pixel} (hhit : cache.get (hashOf px) = px) :
    cache.set (hashOf px).val px (hashOf px).isLt = cache := by
  have hslot : cache[(hashOf px).val] = px := hhit
  simpa only [hslot] using cache.set_getElem_self (hashOf px).isLt

/-- Settles O14: the shared law of the chunk operations at the chunk of a cache hit, whose Commit leaves CACHE as it
was. -/
theorem indexWritesTheSlot : Obligations.IndexWritesTheSlot := by
  unfold Obligations.IndexWritesTheSlot
  intro s px hreach hhit
  obtain ⟨hroom, hfull⟩ := exec_selectedChunk hreach (chunkFor_of_hit hhit)
  rw [encode_index, cache_set_of_hit hhit] at hroom
  exact ⟨hroom, hfull⟩

end Sys2Proof.Machine
end

section
/-! DIFF and LUMA (43_delta.md R112, R113): their bytes as numbers, and what each answers in the state that selects
it. -/

namespace Sys2Proof

/-! ### The bytes as numbers -/

/-- Fields side by side are a number in base `2 ^ n`: the upper one wraps in its own width, the lower one must fit. -/
theorem ofInt_append_ofInt (m n : Nat) {hi lo : Int} (hhi : 0 ≤ hi) (hlo : 0 ≤ lo) (hfit : lo < 2 ^ n) :
    BitVec.ofInt m hi ++ BitVec.ofInt n lo = BitVec.ofInt (m + n) (hi * 2 ^ n + lo) := by
  lift hi to Nat using hhi
  lift lo to Nat using hlo
  norm_cast at hfit ⊢
  have hquot : (hi * 2 ^ n + lo) / 2 ^ n = hi := by
    rw [Nat.mul_comm, Nat.mul_add_div (Nat.two_pow_pos n), Nat.div_eq_of_lt hfit, Nat.add_zero]
  have hrem : (hi * 2 ^ n + lo) % 2 ^ n = lo := Nat.mul_add_mod_of_lt hfit
  apply BitVec.eq_of_toNat_eq
  simp only [BitVec.ofInt_natCast, BitVec.toNat_append, BitVec.toNat_ofNat, Nat.mod_eq_of_lt hfit]
  rw [← Nat.shiftLeft_add_eq_or_of_lt hfit, Nat.shiftLeft_eq, Nat.pow_add, Nat.mul_comm (2 ^ m), Nat.mod_mul, hquot,
    hrem]
  ring

namespace Machine

/-- The byte of a DIFF chunk (43_delta.md R112): the tag, then three deltas whose bias makes them fit their fields. -/
theorem encode_diff {dr dg db : Int} (h : inDiffRange dr dg db) :
    encode (.diff dr dg db) = [BitVec.ofInt 8 (0x40 + 16 * (dr + 2) + 4 * (dg + 2) + (db + 2))] := by
  obtain ⟨hr, hg, hb⟩ := h
  have htag : 0b01#2 = BitVec.ofInt 2 1 := rfl
  simp only [encode, htag]
  rw [ofInt_append_ofInt, ofInt_append_ofInt, ofInt_append_ofInt]
  · congr 2
    ring
  all_goals omega

/-- The bytes of a LUMA chunk (43_delta.md R113): the tag over the green delta, then the two others. -/
theorem encode_luma {dr dg db : Int} (h : inLumaRange dr dg db) :
    encode (.luma dg (dr - dg) (db - dg))
      = [BitVec.ofInt 8 (0x80 + (dg + 32)), BitVec.ofInt 8 (16 * (dr - dg + 8) + (db - dg + 8))] := by
  obtain ⟨hg, hrg, hbg⟩ := h
  have htag : 0b10#2 = BitVec.ofInt 2 2 := rfl
  simp only [encode, htag]
  rw [ofInt_append_ofInt, ofInt_append_ofInt]
  · congr 3
    ring
  all_goals omega

/-! ### The operations -/

/-- `exec_selectedChunk` for the operation that passed its test in the decision tree, with its bytes written out. -/
theorem exec_chunk_of_selected {s : State} {px : Pixel} {i : Instr} {bytes : List Byte}
    (hreach : reachesChunkTests px s) (hsel : Selected px s i) (henc : encode i = bytes) :
    (s.wptr.toNat + bytes.length ≤ s.outcap.toNat →
      ∃ t, exec i s = .next t ∧ holds t.out s.wptr.toNat bytes ∧ consumed bytes.length px s t)
    ∧ (s.outcap.toNat < s.wptr.toNat + bytes.length →
      exec i s = .next { s with err := .alloc, phase := .error }) := by
  have ⟨_, _, hbreak, hrun⟩ := hreach
  have hchunk : chunkFor s.cache s.prev px = i := (select_of_chunkTests hbreak hrun).symm.trans hsel.select_eq
  obtain ⟨hroom, hfull⟩ := henc ▸ exec_selectedChunk hreach hchunk
  refine ⟨fun hfits => ?_, hfull⟩
  obtain ⟨t, hexec, hout, hcons, -⟩ := hroom hfits
  exact ⟨t, hexec, hout, hcons⟩

/-- Settles O15: behind the alpha gate the decision tree selects DIFF on its range, and its byte is `encode_diff`. -/
theorem diffWritesOneByte : Obligations.DiffWritesOneByte := by
  unfold Obligations.DiffWritesOneByte
  rintro s px _ _ _ ⟨hreach, hmiss, halpha⟩ rfl rfl rfl hdiff
  have ⟨_, _, hbreak, hrun⟩ := hreach
  exact exec_chunk_of_selected hreach (.diff hbreak hrun hmiss halpha hdiff) (encode_diff hdiff)

/-- Settles O16: outside the DIFF range the decision tree selects LUMA on its own, and its bytes are `encode_luma`. -/
theorem lumaWritesTwoBytes : Obligations.LumaWritesTwoBytes := by
  unfold Obligations.LumaWritesTwoBytes
  rintro s px _ _ _ ⟨hreach, hmiss, halpha⟩ rfl rfl rfl hdiff hluma
  have ⟨_, _, hbreak, hrun⟩ := hreach
  exact exec_chunk_of_selected hreach (.luma hbreak hrun hmiss halpha hdiff hluma) (encode_luma hluma)

end Machine
end Sys2Proof
end

section
/-! RGB and RGBA (44_literal.md R125, R126): what each answers in the state that selects it. Their bytes are the tag and
the channels as `encode` writes them, so no byte arithmetic is needed. -/

namespace Sys2Proof.Machine

/-- Settles O17: behind the alpha gate and outside both delta ranges the decision tree selects RGB. -/
theorem rgbWritesFourBytes : Obligations.RgbWritesFourBytes := by
  unfold Obligations.RgbWritesFourBytes
  rintro s px _ _ _ ⟨hreach, hmiss, halpha⟩ rfl rfl rfl hdiff hluma
  have ⟨_, _, hbreak, hrun⟩ := hreach
  exact exec_chunk_of_selected hreach (.rgb hbreak hrun hmiss halpha hdiff hluma) rfl

/-- Settles O18: on a miss with another alpha the decision tree selects RGBA, whatever the other channels are. -/
theorem rgbaWritesFiveBytes : Obligations.RgbaWritesFiveBytes := by
  unfold Obligations.RgbaWritesFiveBytes
  intro s px hreach hmiss halpha
  have ⟨_, _, hbreak, hrun⟩ := hreach
  exact exec_chunk_of_selected hreach (.rgba hbreak hrun hmiss halpha) rfl

end Sys2Proof.Machine
end

section
/-! HEADER and ENDMARK (45_framing.md R135, R139): what each answers in its phase, with or without room for the marker. -/

namespace Sys2Proof.Machine

/-- The current operation answers the block's move. -/
theorem BlockMove.exec_current {s t : State} {i : Instr} (h : BlockMove s t) (hc : current s = some i) :
    exec i s = .next t :=
  (blockStep_of_current hc).symm.trans h.blockStep_eq

theorem current_of_hdr {s : State} (hp : s.phase = .hdr) : current s = some (headerOf s) := by
  simp only [current, hp]

theorem current_of_fin {s : State} (hp : s.phase = .fin) : current s = some .endmark := by
  simp only [current, hp]

/-- The header's bytes as numbers: WIDTH and HEIGHT most significant byte first (45_framing.md R137). -/
theorem encode_headerOf (s : State) :
    encode (headerOf s) =
      [0x71, 0x6F, 0x69, 0x66,
       BitVec.ofNat 8 (s.width.toNat / 2 ^ 24), BitVec.ofNat 8 (s.width.toNat / 2 ^ 16),
       BitVec.ofNat 8 (s.width.toNat / 2 ^ 8), BitVec.ofNat 8 s.width.toNat,
       BitVec.ofNat 8 (s.height.toNat / 2 ^ 24), BitVec.ofNat 8 (s.height.toNat / 2 ^ 16),
       BitVec.ofNat 8 (s.height.toNat / 2 ^ 8), BitVec.ofNat 8 s.height.toNat,
       channelByte s.aseen, s.cspace] := by
  simp only [headerOf, encode, be32_eq_div, List.cons_append, List.nil_append]

/-- Settles O19: in HDR the block's move is the store of the header's bytes at offset 0, which `encode_headerOf` names. -/
theorem headerIsWrittenAtOffsetZero : Obligations.HeaderIsWrittenAtOffsetZero := by
  unfold Obligations.HeaderIsWrittenAtOffsetZero
  intro s hp
  refine ⟨_, (BlockMove.header hp).exec_current (current_of_hdr hp), ?_, sameOutside_writeBytes _ _ _⟩
  exact encode_headerOf s ▸ holds_writeBytes s.out 0 (encode (headerOf s))

/-- Settles O20: in END the block's move is the append of the marker with DONE, or the fault when it does not fit. -/
theorem endmarkFinishesTheStream : Obligations.EndmarkFinishesTheStream := by
  unfold Obligations.EndmarkFinishesTheStream
  intro s hp
  constructor
  · intro hroom
    exact ⟨_, (BlockMove.endmark hp hroom).exec_current (current_of_fin hp), holds_writeBytes _ _ _,
      sameOutside_writeBytes _ _ _⟩
  · intro hfull
    exact (BlockMove.endFault hp hfull).exec_current (current_of_fin hp)

end Sys2Proof.Machine
end

section
/-! Faults (60_exceptions.md R151, R154, R156): which operations raise ALLOC, what the fault leaves, and who writes
ERR. -/

namespace Sys2Proof.Machine

/-! ### An operation that answers is the current one -/

theorem current_of_scanOp {i : Instr} {body : Pixel → State → Option State} {s t : State}
    (h : scanOp i body s = .next t) : current s = some i := by
  obtain ⟨hp, px, hc, rfl, -⟩ := scanOp_next h
  exact current_of_scan hp hc

theorem current_of_pixelChunk {i : Instr} {s t : State} (hi : isPixelChunk i = true) (h : exec i s = .next t) :
    current s = some i :=
  current_of_scanOp (exec_pixelChunk hi s ▸ h)

/-- An operation other than START answers only in a state whose current operation it is (30_encoding.md R64). -/
theorem current_of_exec {i : Instr} {s t : State} (h : exec i s = .next t) (hi : i ≠ .start) :
    current s = some i := by
  cases i with
  | start => exact absurd rfl hi
  | runacc => exact current_of_scanOp (body := accBody) h
  | runemit count => exact current_of_scanOp (body := runBody count) h
  | header w hgt c cs =>
    simp only [exec, execHeader] at h
    split_ifs at h with hsel
    obtain ⟨hp, hops⟩ := hsel
    exact hops ▸ current_of_hdr hp
  | endmark =>
    simp only [exec, execEndmark] at h
    split_ifs at h with hp
    exact current_of_fin hp
  | index | diff | luma | rgb | rgba => exact current_of_pixelChunk rfl h

/-- Everything an operation can do when it answers: START, or the block's move. -/
theorem exec_next {i : Instr} {s t : State} (h : exec i s = .next t) :
    (i = .start ∧ t = if busy s then s else startState s) ∨ (current s = some i ∧ BlockMove s t) := by
  by_cases hi : i = .start
  · subst hi
    cases h
    exact .inl ⟨rfl, rfl⟩
  · have hc := current_of_exec h hi
    exact .inr ⟨hc, blockStep_next (blockStep_of_current hc ▸ h)⟩

/-! ### Which moves are faults -/

/-- The operations whose Emit is checked against OUTCAP: the chunks and the end marker (20_memory.md R35). -/
def appendsToStream (i : Instr) : Prop := isPixelChunk i = true ∨ isRunChunk i = true ∨ i = .endmark

/-- The bytes of the operation pass OUTCAP (60_exceptions.md R151). -/
def overflows (i : Instr) (s : State) : Prop := s.outcap.toNat < s.wptr.toNat + (encode i).length

/-- The operations that cannot fault, and those that found room. -/
def cannotOverflow (i : Instr) (s : State) : Prop := i = .runacc ∨ i = headerOf s ∨ ¬ overflows i s

theorem cannotOverflow.not_alloc {i : Instr} {s : State} (h : cannotOverflow i s) :
    ¬ (appendsToStream i ∧ overflows i s) := by
  rintro ⟨happ, hover⟩
  rcases h with rfl | rfl | hfits
  · simp [appendsToStream, isPixelChunk, isRunChunk] at happ
  · simp [appendsToStream, headerOf, isPixelChunk, isRunChunk] at happ
  · exact hfits hover

theorem select_appendsToStream {px : Pixel} {s : State} (hb : sentinel s = true ∨ px ≠ s.prev) :
    appendsToStream (select px s) := by
  rcases select_cases px s with ⟨-, hreal, heq⟩ | ⟨hsel, -⟩ | ⟨hsel, -⟩
  · simp [hreal, heq] at hb
  · exact hsel ▸ .inr (.inl rfl)
  · exact hsel ▸ .inl (chunkFor_isPixelChunk _ _ _)

theorem ScanMove.cannotOverflow_select {s t : State} {px : Pixel} (h : ScanMove s px t) :
    cannotOverflow (select px s) s := by
  cases h with
  | acc hs hp => exact .inl (Selected.runacc hs hp).select_eq
  | flush count hb hr hc hf =>
    rw [select_runemit hb hr hc]
    exact .inr (.inr (Nat.not_lt.mpr hf))
  | chunk i hb hr hi hf =>
    rw [select_of_chunkTests hb hr, hi]
    exact .inr (.inr (Nat.not_lt.mpr hf))

/-- No scan move writes ERR. -/
theorem ScanMove.err_eq {s t : State} {px : Pixel} (h : ScanMove s px t) : t.err = s.err := by
  cases h <;> rfl

/-- The current operation takes the fault because its bytes pass OUTCAP, or it cannot fault and does not enter ERROR
(60_exceptions.md R151, R156). -/
theorem BlockMove.fault_or_room {s t : State} {i : Instr} (h : BlockMove s t) (hc : current s = some i) :
    (appendsToStream i ∧ overflows i s ∧ t = raiseAlloc s) ∨ (cannotOverflow i s ∧ t.phase ≠ .error) := by
  cases h with
  | rest hb => simp [current_of_rest hb] at hc
  | scan px _ hp hcur hm =>
    obtain rfl : select px s = i := by simpa [current_of_scan hp hcur] using hc
    refine .inr ⟨hm.cannotOverflow_select, ?_⟩
    rcases hm.phase_cases hp with hph | hph <;> simp [hph]
  | scanFault px hp hcur hb hf =>
    obtain rfl : select px s = i := by simpa [current_of_scan hp hcur] using hc
    exact .inl ⟨select_appendsToStream hb, hf, rfl⟩
  | header hp =>
    obtain rfl : headerOf s = i := by simpa [current_of_hdr hp] using hc
    exact .inr ⟨.inr (.inl rfl), by simp⟩
  | endmark hp hf =>
    obtain rfl : Instr.endmark = i := by simpa [current_of_fin hp] using hc
    exact .inr ⟨.inr (.inr (Nat.not_lt.mpr hf)), by simp⟩
  | endFault hp hf =>
    obtain rfl : Instr.endmark = i := by simpa [current_of_fin hp] using hc
    exact .inl ⟨.inr (.inr rfl), hf, rfl⟩

theorem startState_phase_eq_error_iff (s : State) : (startState s).phase = .error ↔ s.outcap.toNat < 14 := by
  simp [startState_eq]

theorem startState_err_of_error {s : State} (h : (startState s).phase = .error) : (startState s).err = .alloc := by
  simp [startState_eq, (startState_phase_eq_error_iff s).mp h]

/-- Settles O28: an operation that answers is START, whose fault is decided by OUTCAP, or a move of the block, which
`BlockMove.fault_or_room` divides. -/
theorem allocIsRaisedExactlyWhenBytesDoNotFit : Obligations.AllocIsRaisedExactlyWhenBytesDoNotFit := by
  unfold Obligations.AllocIsRaisedExactlyWhenBytesDoNotFit
  intro i s t hexec hp
  change (t.phase = .error ↔ (i = .start ∧ busy s = false ∧ s.outcap.toNat < 14)
    ∨ (appendsToStream i ∧ overflows i s)) ∧ (t.phase = .error → t.err = .alloc)
  rcases exec_next hexec with ⟨rfl, ht⟩ | ⟨hc, hmove⟩
  · have hstart : ¬ appendsToStream .start := by simp [appendsToStream, isPixelChunk, isRunChunk]
    cases hb : busy s with
    | true =>
      obtain rfl : t = s := by simpa [hb] using ht
      simp [hp, hstart]
    | false =>
      obtain rfl : t = startState s := by simpa [hb] using ht
      exact ⟨by simp [startState_phase_eq_error_iff, hstart], startState_err_of_error⟩
  · have hbusy : busy s ≠ false := fun hb => by simp [current_of_rest hb] at hc
    rcases hmove.fault_or_room hc with ⟨happ, hover, rfl⟩ | ⟨hroom, hph⟩
    · simp [happ, hover]
    · simp [hph, hbusy, hroom.not_alloc]

/-! ### What the fault leaves -/

/-- STATUS in ERROR: ERR 1 over a BUSY of 0 and the phase code 5 (10_state.md R21). -/
theorem statusByte_of_alloc {s : State} (hp : s.phase = .error) (he : s.err = .alloc) : statusByte s = 0x15 := by
  simp only [statusByte, busy, hp, he]
  rfl

/-- Settles O29: `BlockMove.fault_or_room` names the state that a fault of the block leaves, `startState` that of START;
the reads of ERROR follow from its phase. -/
theorem faultEntryIsPrecise : Obligations.FaultEntryIsPrecise := by
  unfold Obligations.FaultEntryIsPrecise
  intro s t
  refine ⟨?_, ?_, ?_⟩
  · rintro ⟨i, hc, hheader, hrunacc, hover, hexec⟩
    have hmove : BlockMove s t := blockStep_next (blockStep_of_current hc ▸ hexec)
    rcases hmove.fault_or_room hc with ⟨-, -, ht⟩ | ⟨hroom, -⟩
    · exact ht
    · rcases hroom with h | h | hfits
      · exact absurd h hrunacc
      · exact absurd h (hheader _ _ _ _)
      · exact absurd hover hfits
  · intro hb hfull hexec
    rw [exec_start_of_rest hb] at hexec
    cases hexec
    exact if_pos hfull
  · intro hp he
    have hb : busy t = false := by simp [busy, hp]
    refine ⟨?_, by simp [readCsr, outlen, hp], by simp [readCsr, channels, hp], fun a => by simp [hostOut, hp],
      current_of_rest hb, hb⟩
    simp [readCsr, statusByte_of_alloc hp he]

/-! ### Who writes ERR -/

/-- A move of the block writes ERR in the fault alone, and then it is ALLOC. -/
theorem BlockMove.err_cases {s t : State} (h : BlockMove s t) : t.err = s.err ∨ t.err = .alloc := by
  cases h with
  | rest => exact .inl rfl
  | scan px _ hp hc hm => exact .inl hm.err_eq
  | scanFault => exact .inr rfl
  | header => exact .inl rfl
  | endmark => exact .inl rfl
  | endFault => exact .inr rfl

theorem BlockMove.err_of_io {s t : State} (h : BlockMove s t) (ht : t.err = .io) : s.err = .io := by
  rcases h.err_cases with he | he
  · exact he ▸ ht
  · simp [he] at ht

/-- START clears ERR or sets it to ALLOC (40_sequencer.md R70). -/
theorem startState_err_ne_io (s : State) : (startState s).err ≠ .io := by
  rw [startState_eq]
  dsimp only
  split_ifs <;> simp

@[simp] theorem setConfig_err (r : Csr) (v : Word64) (s : State) : (setConfig r v s).err = s.err := by
  unfold setConfig
  split_ifs
  · rfl
  · cases r <;> rfl

/-- Settles O30: neither a move of the block nor an action of the host sets ERR to 2. -/
theorem ioErrorIsNeverSet : Obligations.IoErrorIsNeverSet := by
  unfold Obligations.IoErrorIsNeverSet
  intro s t hstep ht
  rcases step_next hstep with ⟨-, hmove⟩ | ⟨e, rest, -, hact⟩
  · exact hmove.err_of_io ht
  · rcases hact with ⟨-, hmove⟩ | ⟨-, rfl⟩ | ⟨_, -, -, rfl⟩ | ⟨_, _, -, rfl⟩ |
      ⟨_, _, -, -, rfl⟩ | ⟨_, _, -, -, rfl⟩
    · exact hmove.err_of_io ht
    · simp at ht
    · split_ifs at ht
      · exact ht
      · exact absurd ht (startState_err_ne_io _)
    · simpa using ht
    · exact ht
    · exact ht

end Sys2Proof.Machine
end

section
/-! The decoder against the serializer (30_encoding.md sections 2 to 4): one law per kind of chunk, by its tag. -/

namespace Sys2Proof

open Machine

/-! ### Fields of a byte -/

/-- A byte is its tag over its six-bit field. -/
theorem tag_append_field (t : Byte) : field t 6 2 ++ field t 0 6 = t :=
  BitVec.extractLsb'_append_extractLsb' (w := 2) (len := 6)

/-- A byte is its two nibbles. -/
theorem nibble_append_nibble (t : Byte) : field t 4 4 ++ field t 0 4 = t :=
  BitVec.extractLsb'_append_extractLsb' (w := 4) (len := 4)

/-- A byte is its four two-bit fields. -/
theorem pairs_append (t : Byte) : field t 6 2 ++ field t 4 2 ++ field t 2 2 ++ field t 0 2 = t := by
  have h4 : field t 6 2 ++ field t 4 2 = t.extractLsb' 4 4 :=
    BitVec.extractLsb'_append_extractLsb'_eq_extractLsb' rfl
  have h2 : t.extractLsb' 4 4 ++ field t 2 2 = t.extractLsb' 2 6 :=
    BitVec.extractLsb'_append_extractLsb'_eq_extractLsb' rfl
  rw [h4, h2]
  exact BitVec.extractLsb'_append_extractLsb' (w := 6) (len := 2)

/-- The four two-bit fields of a DIFF byte, read back. -/
theorem field_pairs (p q r s : BitVec 2) :
    field (p ++ q ++ r ++ s : BitVec (2 + 2 + 2 + 2)) 6 2 = p
      ∧ field (p ++ q ++ r ++ s : BitVec (2 + 2 + 2 + 2)) 4 2 = q
      ∧ field (p ++ q ++ r ++ s : BitVec (2 + 2 + 2 + 2)) 2 2 = r
      ∧ field (p ++ q ++ r ++ s : BitVec (2 + 2 + 2 + 2)) 0 2 = s := by
  refine ⟨?_, ?_, ?_, BitVec.extractLsb'_append_eq_right⟩ <;>
    refine (BitVec.extractLsb'_append_eq_of_le (by decide)).trans ?_
  · exact (BitVec.extractLsb'_append_eq_of_le (by decide)).trans BitVec.extractLsb'_append_eq_left
  · exact (BitVec.extractLsb'_append_eq_of_le (by decide)).trans BitVec.extractLsb'_append_eq_right
  · exact BitVec.extractLsb'_append_eq_right

/-- The two nibbles of the second LUMA byte, read back. -/
theorem field_nibbles (p q : BitVec 4) :
    field (p ++ q : BitVec (4 + 4)) 4 4 = p ∧ field (p ++ q : BitVec (4 + 4)) 0 4 = q :=
  ⟨BitVec.extractLsb'_append_eq_left, BitVec.extractLsb'_append_eq_right⟩

/-- The tag is the value of the byte divided by 64 (30_encoding.md R60). -/
theorem toNat_tag (t : Byte) : (field t 6 2).toNat = t.toNat / 64 := by
  have := t.isLt
  simp only [field, BitVec.extractLsb'_toNat, Nat.shiftRight_eq_div_pow]
  omega

theorem tag_eq_of_range {t : Byte} {tag : BitVec 2} (h : t.toNat / 64 = tag.toNat) : field t 6 2 = tag :=
  BitVec.eq_of_toNat_eq ((toNat_tag t).trans h)

/-- A value that fits its biased field is read back (30_encoding.md R62). -/
theorem unbias_ofInt {n : Nat} {v bias : Int} (hlo : 0 ≤ v + bias) (hhi : v + bias < 2 ^ n) :
    unbias n (BitVec.ofInt n (v + bias)) bias = v := by
  obtain ⟨k, hk⟩ := Int.eq_ofNat_of_zero_le hlo
  rw [hk] at hhi ⊢
  have hfit : k < 2 ^ n := by exact_mod_cast hhi
  simp only [unbias, BitVec.ofInt_natCast, BitVec.toNat_ofNat, Nat.mod_eq_of_lt hfit]
  omega

/-- A field is written back from the value that it was read as. -/
theorem ofInt_unbias {n : Nat} (f : BitVec n) (bias : Int) : BitVec.ofInt n (unbias n f bias + bias) = f := by
  simp [unbias]

/-- The range of a value read from a biased field. -/
theorem unbias_range {n : Nat} (f : BitVec n) (bias : Int) :
    -bias ≤ unbias n f bias ∧ unbias n f bias < 2 ^ n - bias := by
  have h : (f.toNat : Int) < 2 ^ n := by exact_mod_cast f.isLt
  unfold unbias
  omega

/-! ### The decoder by tag -/

/-- The two full-byte tags are RUN tags as far as their top bits go. -/
theorem ne_fullTag {t : Byte} (h : field t 6 2 ≠ 0b11#2) : t ≠ 0xFE ∧ t ≠ 0xFF := by
  constructor <;> rintro rfl <;> exact h rfl

theorem decodeChunk_index {t : Byte} (rest : List Byte) (h : field t 6 2 = 0b00#2) :
    decodeChunk (t :: rest) = .ok (.index (field t 0 6).toNat, rest) := by
  obtain ⟨hfe, hff⟩ := ne_fullTag (t := t) (by simp [h])
  simp only [decodeChunk, if_neg hfe, if_neg hff, h]
  rfl

theorem decodeChunk_diff {t : Byte} (rest : List Byte) (h : field t 6 2 = 0b01#2) :
    decodeChunk (t :: rest)
      = .ok (.diff (unbias 2 (field t 4 2) 2) (unbias 2 (field t 2 2) 2) (unbias 2 (field t 0 2) 2), rest) := by
  obtain ⟨hfe, hff⟩ := ne_fullTag (t := t) (by simp [h])
  simp only [decodeChunk, if_neg hfe, if_neg hff, h]
  rfl

theorem decodeChunk_luma {t : Byte} (u : Byte) (rest : List Byte) (h : field t 6 2 = 0b10#2) :
    decodeChunk (t :: u :: rest)
      = .ok (.luma (unbias 6 (field t 0 6) 32) (unbias 4 (field u 4 4) 8) (unbias 4 (field u 0 4) 8), rest) := by
  obtain ⟨hfe, hff⟩ := ne_fullTag (t := t) (by simp [h])
  simp only [decodeChunk, if_neg hfe, if_neg hff, h]
  rfl

theorem decodeChunk_runemit {t : Byte} (rest : List Byte) (h : field t 6 2 = 0b11#2) (hfe : t ≠ 0xFE) (hff : t ≠ 0xFF) :
    decodeChunk (t :: rest) = .ok (.runemit ((field t 0 6).toNat + 1), rest) := by
  simp only [decodeChunk, if_neg hfe, if_neg hff, h]
  rfl

/-- Below the two full-byte tags the count of a RUN chunk is at most 62 (30_encoding.md R55). -/
theorem count_range {t : Byte} (h : field t 6 2 = 0b11#2) : (t ≠ 0xFE ∧ t ≠ 0xFF) ↔ (field t 0 6).toNat < 62 := by
  rw [← tag_append_field t, h]
  generalize field t 0 6 = k
  have hk : ∀ k : BitVec 6, (0b11#2 ++ k ≠ 0xFE#8 ∧ 0b11#2 ++ k ≠ 0xFF#8)
      ↔ (field (0b11#2 ++ k : BitVec (2 + 6)) 0 6).toNat < 62 := by
    decide
  exact hk k

/-! ### Reading back what was written -/

/-- Settles O2: each format's fields are read back by their own law; the tag keeps the kinds apart. -/
theorem encodedOperationDecodesBack : Obligations.EncodedOperationDecodesBack := by
  unfold Obligations.EncodedOperationDecodesBack
  intro i p rest hwf hp
  cases i with
  | start => cases hp
  | runacc => cases hp
  | runemit count =>
    cases hp
    obtain ⟨hlo, hhi⟩ : 1 ≤ count ∧ count ≤ 62 := by simpa [Instr.wellFormed] using hwf
    obtain ⟨htag, hfield⟩ := field_tagged 0b11#2 (BitVec.ofNat 6 (count - 1))
    have hcount : (BitVec.ofNat 6 (count - 1)).toNat = count - 1 := Nat.mod_eq_of_lt (by omega)
    obtain ⟨hfe, hff⟩ := (count_range htag).mpr (by rw [hfield, hcount]; omega)
    refine (decodeChunk_runemit rest htag hfe hff).trans ?_
    rw [hfield, hcount, Nat.sub_add_cancel hlo]
  | index slot =>
    cases hp
    have hslot : slot < 64 := by simpa [Instr.wellFormed] using hwf
    obtain ⟨htag, hfield⟩ := field_tagged 0b00#2 (BitVec.ofNat 6 slot)
    refine (decodeChunk_index rest htag).trans ?_
    rw [hfield, BitVec.toNat_ofNat, Nat.mod_eq_of_lt hslot]
  | diff dr dg db =>
    cases hp
    obtain ⟨hr, hg, hb⟩ : inDiffRange dr dg db := by simpa [Instr.wellFormed, inDiffRange] using hwf
    obtain ⟨htag, h4, h2, h0⟩ :=
      field_pairs 0b01#2 (BitVec.ofInt 2 (dr + 2)) (BitVec.ofInt 2 (dg + 2)) (BitVec.ofInt 2 (db + 2))
    refine (decodeChunk_diff rest htag).trans ?_
    rw [h4, h2, h0, unbias_ofInt, unbias_ofInt, unbias_ofInt]
    all_goals omega
  | luma dg drg dbg =>
    cases hp
    obtain ⟨hg, hr, hb⟩ : (-32 ≤ dg ∧ dg ≤ 31) ∧ (-8 ≤ drg ∧ drg ≤ 7) ∧ (-8 ≤ dbg ∧ dbg ≤ 7) := by
      simpa [Instr.wellFormed] using hwf
    obtain ⟨htag, hfield⟩ := field_tagged 0b10#2 (BitVec.ofInt 6 (dg + 32))
    obtain ⟨h4, h0⟩ := field_nibbles (BitVec.ofInt 4 (drg + 8)) (BitVec.ofInt 4 (dbg + 8))
    refine (decodeChunk_luma _ rest htag).trans ?_
    rw [hfield, h4, h0, unbias_ofInt, unbias_ofInt, unbias_ofInt]
    all_goals omega
  | rgb r g b => cases hp; rfl
  | rgba r g b a => cases hp; rfl
  | header w h c s =>
    cases hp
    obtain ⟨w3, w2, w1, w0, hw, hw'⟩ := ofBe32_be32 w
    obtain ⟨h3, h2, h1, h0, hh, hh'⟩ := ofBe32_be32 h
    simp [decode, encode, decodeHeader, hw, hh, hw', hh']
  | endmark => cases hp; rfl

/-! ### Writing back what was read -/

/-- Bytes read as a chunk are the encoding of a well-formed chunk, one branch of the decoder at a time. -/
theorem encode_of_decodeChunk {bytes rest : List Byte} {i : Instr} (h : decodeChunk bytes = .ok (i, rest)) :
    partOf i = some .chunk ∧ i.wellFormed = true ∧ bytes = encode i ++ rest := by
  cases bytes with
  | nil => cases h
  | cons t tail =>
    by_cases hfe : t = 0xFE
    · subst hfe
      match tail, h with
      | r :: g :: b :: tail, h => cases h; exact ⟨rfl, rfl, rfl⟩
    by_cases hff : t = 0xFF
    · subst hff
      match tail, h with
      | r :: g :: b :: a :: tail, h => cases h; exact ⟨rfl, rfl, rfl⟩
    have hbyte := tag_append_field t
    have htags : ∀ tag : BitVec 2, tag = 0b00#2 ∨ tag = 0b01#2 ∨ tag = 0b10#2 ∨ tag = 0b11#2 := by decide
    rcases htags (field t 6 2) with htag | htag | htag | htag
    · rw [decodeChunk_index tail htag] at h
      cases h
      rw [htag] at hbyte
      refine ⟨rfl, by simpa [Instr.wellFormed] using (field t 0 6).isLt, ?_⟩
      simp [encode, hbyte]
    · rw [decodeChunk_diff tail htag] at h
      cases h
      have hpairs := pairs_append t
      rw [htag] at hpairs
      have hr := unbias_range (field t 4 2) 2
      have hg := unbias_range (field t 2 2) 2
      have hb := unbias_range (field t 0 2) 2
      refine ⟨rfl, ?_, ?_⟩
      · simp only [Instr.wellFormed, decide_eq_true_eq]
        omega
      · simp only [encode, ofInt_unbias]
        rw [hpairs]
        rfl
    · match tail, h with
      | u :: tail, h =>
        rw [decodeChunk_luma u tail htag] at h
        cases h
        rw [htag] at hbyte
        have hg := unbias_range (field t 0 6) 32
        have hr := unbias_range (field u 4 4) 8
        have hb := unbias_range (field u 0 4) 8
        refine ⟨rfl, ?_, ?_⟩
        · simp only [Instr.wellFormed, decide_eq_true_eq]
          omega
        · simp only [encode, ofInt_unbias]
          rw [hbyte, nibble_append_nibble u]
          rfl
      | [], h => simp [decodeChunk, htag] at h
    · rw [decodeChunk_runemit tail htag hfe hff] at h
      cases h
      rw [htag] at hbyte
      have hcount := (count_range htag).mp ⟨hfe, hff⟩
      refine ⟨rfl, ?_, ?_⟩
      · simp only [Instr.wellFormed, decide_eq_true_eq]
        omega
      · simp [encode, hbyte]

theorem encode_of_decodeHeader {bytes rest : List Byte} {i : Instr} (h : decodeHeader bytes = .ok (i, rest)) :
    partOf i = some .header ∧ i.wellFormed = true ∧ bytes = encode i ++ rest := by
  unfold decodeHeader at h
  split at h
  · rename_i hmagic
    split_ifs at h with hm
    cases h
    refine ⟨rfl, rfl, ?_⟩
    simp only [encode, be32_ofBe32, ← hm]
    rfl
  · cases h
  · cases h

theorem encode_of_decodeEndMark {bytes rest : List Byte} {i : Instr} (h : decodeEndMark bytes = .ok (i, rest)) :
    partOf i = some .endMark ∧ i.wellFormed = true ∧ bytes = encode i ++ rest := by
  unfold decodeEndMark at h
  split at h
  · split_ifs at h with hm
    cases h
    refine ⟨rfl, rfl, ?_⟩
    simp only [encode, ← hm]
    rfl
  · cases h
  · cases h

/-- Settles O3: part by part, what the decoder accepts is what the serializer writes. -/
theorem decodedBytesAreTheEncoding : Obligations.DecodedBytesAreTheEncoding := by
  unfold Obligations.DecodedBytesAreTheEncoding
  intro p bytes rest i h
  cases p with
  | header => exact encode_of_decodeHeader h
  | chunk => exact encode_of_decodeChunk h
  | endMark => exact encode_of_decodeEndMark h

/-! ### The first byte -/

/-- Settles O4: the range of the first byte fixes its tag, and the tag the kind of the chunk. -/
theorem firstByteDeterminesTheChunk : Obligations.FirstByteDeterminesTheChunk := by
  unfold Obligations.FirstByteDeterminesTheChunk
  intro t x1 x2 x3 x4 rest
  refine ⟨fun h => ?_, fun h => ?_, fun h => ?_, fun h => ?_, fun h => ?_, fun h => ?_⟩
  · have htag : field t 6 2 = 0b00#2 := tag_eq_of_range (show t.toNat / 64 = 0 by omega)
    exact ⟨_, decodeChunk_index _ htag⟩
  · have htag : field t 6 2 = 0b01#2 := tag_eq_of_range (show t.toNat / 64 = 1 by omega)
    exact ⟨_, _, _, decodeChunk_diff _ htag⟩
  · have htag : field t 6 2 = 0b10#2 := tag_eq_of_range (show t.toNat / 64 = 2 by omega)
    exact ⟨_, _, _, decodeChunk_luma x1 _ htag⟩
  · have htag : field t 6 2 = 0b11#2 := tag_eq_of_range (show t.toNat / 64 = 3 by omega)
    have hfe : t ≠ 0xFE := by rintro rfl; simp at h
    have hff : t ≠ 0xFF := by rintro rfl; simp at h
    exact ⟨_, decodeChunk_runemit _ htag hfe hff⟩
  · obtain rfl : t = 0xFE := BitVec.eq_of_toNat_eq h
    rfl
  · obtain rfl : t = 0xFF := BitVec.eq_of_toNat_eq h
    rfl

/-- Settles O1: eight words written out by hand, read by the decoder. -/
theorem writtenWordsDecode : Obligations.WrittenWordsDecode := by
  unfold Obligations.WrittenWordsDecode
  decide

end Sys2Proof
end

section
/-! The invariant (10_state.md sections 4 and 7, 40_sequencer.md section 5): it holds at reset, and every move of the
block and every action of the host keeps it. -/

namespace Sys2Proof.Machine

/-! ### Counters and stores -/

theorem npix_lt (s : State) : npix s < 2 ^ 64 := by
  have hw := s.width.isLt
  have hh := s.height.isLt
  calc npix s ≤ (2 ^ 32 - 1) * (2 ^ 32 - 1) := Nat.mul_le_mul (by omega) (by omega)
    _ < 2 ^ 64 := by norm_num

/-- A counter below a bound that a word holds does not wrap (10_state.md R22). -/
theorem toNat_add_one {w : Word64} {n : Nat} (h : w.toNat < n) (hn : n < 2 ^ 64) : (w + 1).toNat = w.toNat + 1 := by
  rw [BitVec.toNat_add]
  exact Nat.mod_eq_of_lt (show w.toNat + 1 < 2 ^ 64 by omega)

/-- At a real position POS advances within NPIX. -/
theorem pos_add_one_toNat {s : State} (h : s.pos.toNat < npix s) : (s.pos + 1).toNat = s.pos.toNat + 1 :=
  toNat_add_one h (npix_lt s)

theorem pos_lt_of_real {s : State} (hs : sentinel s = false) (h : s.pos.toNat ≤ npix s) : s.pos.toNat < npix s := by
  have hne : s.pos.toNat ≠ npix s := by simpa [sentinel] using hs
  omega

theorem cur_of_real {s : State} (h : s.pos.toNat < npix s) : cur s = s.inp.pixel s.pos.toNat := if_pos h

theorem cur_of_not_real {s : State} (h : npix s ≤ s.pos.toNat) : cur s = some Pixel.zero := if_neg (Nat.not_lt.mpr h)

theorem Memory.isSome_read_writeBytes (m : Memory) (a : Nat) (vs : List Byte) {x : Nat}
    (h : a ≤ x ∧ x < a + vs.length ∨ (m.read x).isSome = true) : ((m.writeBytes a vs).read x).isSome = true := by
  rw [Memory.read_writeBytes]
  split_ifs with hx
  · rw [List.getElem?_eq_getElem (by omega)]
    rfl
  · exact h.resolve_left hx

/-- An append leaves no hole below the new WPTR. -/
theorem isSome_read_appendBytes {s : State} {bytes : List Byte} {a : Nat}
    (hf : s.wptr.toNat + bytes.length ≤ s.outcap.toNat) (ha : a < (appendBytes bytes s).wptr.toNat)
    (hold : a < s.wptr.toNat → (s.out.read a).isSome = true) :
    ((appendBytes bytes s).out.read a).isSome = true := by
  rw [appendBytes_wptr, wptr_add_toNat hf] at ha
  refine Memory.isSome_read_writeBytes _ _ _ ?_
  by_cases h : a < s.wptr.toNat
  · exact .inr (hold h)
  · exact .inl ⟨by omega, ha⟩

/-! ### The invariant by phase -/

theorem busy_of_scan {s : State} (hp : s.phase = .scan) : busy s = true := by simp [busy, hp]
theorem busy_of_hdr {s : State} (hp : s.phase = .hdr) : busy s = true := by simp [busy, hp]
theorem busy_of_fin {s : State} (hp : s.phase = .fin) : busy s = true := by simp [busy, hp]

/-- At rest the invariant speaks of the memories, ERR and the finished stream only. -/
theorem Inv.of_rest {s : State} (hb : busy s = false) (hin : s.inp.wf) (hout : s.out.wf)
    (herr : s.err = if s.phase = .error then .alloc else .none)
    (hdone : s.phase = .done → 22 ≤ s.wptr.toNat ∧ ∀ a < s.wptr.toNat, (s.out.read a).isSome = true) : Inv s where
  inWf := hin
  outWf := hout
  errCode := herr
  bounds := by simp [hb]
  prevCached := by simp [hb]
  slots := by simp [hb]
  pendingRun := by simp [hb]
  scanOver := by rintro (hp | hp) <;> simp [busy, hp] at hb
  chunksWritten := by simp [hb]
  headerWritten := by intro hp; simp [busy, hp] at hb
  doneWritten := hdone

/-- What the invariant says of a BUSY state in SCAN or HDR. -/
structure ScanInv (s : State) : Prop where
  inWf : s.inp.wf
  outWf : s.out.wf
  errNone : s.err = .none
  pos_le : s.pos.toNat ≤ npix s
  run_le : s.run.toNat ≤ s.pos.toNat
  wptr_ge : 14 ≤ s.wptr.toNat
  wptr_le : s.wptr.toNat ≤ s.outcap.toNat
  prevCached : s.cache.get (hashOf s.prev) = s.prev
  slots : ∀ k, hashOf (s.cache.get k) = k ∨ s.cache.get k = Pixel.zero
  pendingRun : ∀ j, s.pos.toNat - s.run.toNat ≤ j → j < s.pos.toNat → s.inp.pixel j = some s.prev
  chunksWritten : ∀ a, 14 ≤ a → a < s.wptr.toNat → (s.out.read a).isSome = true

/-- A BUSY state that meets the invariant. -/
theorem Inv.scanInv {s : State} (h : Inv s) (hb : busy s = true) : ScanInv s := by
  obtain ⟨hpos, hrun, hlo, hcap⟩ := h.bounds hb
  have herr : s.err = .none := by
    rw [h.errCode, if_neg]
    intro hp
    simp [busy, hp] at hb
  exact ⟨h.inWf, h.outWf, herr, hpos, hrun, hlo, hcap, h.prevCached hb, h.slots hb, h.pendingRun hb, h.chunksWritten hb⟩

/-- In a phase that is BUSY the invariant is `ScanInv` with what HDR and END add. -/
theorem ScanInv.inv {s : State} (h : ScanInv s) (hb : busy s = true)
    (hover : s.phase = .hdr ∨ s.phase = .fin → s.pos.toNat = npix s ∧ s.run = 0)
    (hheader : s.phase = .fin → ∀ a < 14, (s.out.read a).isSome = true) : Inv s where
  inWf := h.inWf
  outWf := h.outWf
  errCode := by
    rw [h.errNone, if_neg]
    intro hp
    simp [busy, hp] at hb
  bounds _ := ⟨h.pos_le, h.run_le, h.wptr_ge, h.wptr_le⟩
  prevCached _ := h.prevCached
  slots _ := h.slots
  pendingRun _ := h.pendingRun
  scanOver := hover
  chunksWritten _ := h.chunksWritten
  headerWritten := hheader
  doneWritten hp := by simp [busy, hp] at hb

/-! ### The scan -/

/-- Commit keeps the slots and caches the new PREV (42_index.md R103). -/
theorem slots_commit {s : State} (px : Pixel) (h : ∀ k, hashOf (s.cache.get k) = k ∨ s.cache.get k = Pixel.zero)
    (k : Fin 64) : hashOf ((commit px s).cache.get k) = k ∨ (commit px s).cache.get k = Pixel.zero := by
  rw [commit_cache, get_set_slot]
  split_ifs with hk
  · exact .inl hk.symm
  · exact h k

theorem prevCached_commit (px : Pixel) (s : State) : (commit px s).cache.get (hashOf px) = px := by
  rw [commit_cache, get_set_slot, if_pos rfl]

/-- RUNACC extends the pending run by a pixel equal to PREV. -/
theorem ScanInv.acc {s : State} (h : ScanInv s) (hs : sentinel s = false) (hc : cur s = some s.prev) :
    ScanInv (extendRun (noteAlpha s.prev s)) := by
  have hlt := pos_lt_of_real hs h.pos_le
  have hpos := pos_add_one_toNat hlt
  have hrun : (s.run + 1).toNat = s.run.toNat + 1 := toNat_add_one (Nat.lt_of_le_of_lt h.run_le hlt) (npix_lt s)
  have hpx : s.inp.pixel s.pos.toNat = some s.prev := by rw [← cur_of_real hlt, hc]
  have hrun_le := h.run_le
  refine ⟨h.inWf, h.outWf, h.errNone, ?_, ?_, h.wptr_ge, h.wptr_le, h.prevCached, h.slots, ?_, h.chunksWritten⟩
  · exact hpos.trans_le hlt
  · change (s.run + 1).toNat ≤ (s.pos + 1).toNat
    omega
  · intro j hlo hhi
    simp only [extendRun_pos, extendRun_run, noteAlpha_pos, noteAlpha_run, hpos, hrun] at hlo hhi
    rcases Nat.lt_succ_iff_lt_or_eq.mp hhi with hj | rfl
    · exact h.pendingRun j (by omega) hj
    · exact hpx

/-- RUNEMIT shortens the pending run from its old end. -/
theorem ScanInv.flush {s : State} (h : ScanInv s) (px : Pixel) {count : Nat} (hle : count ≤ s.run.toNat)
    (hf : s.wptr.toNat + 1 ≤ s.outcap.toNat) :
    ScanInv (takeFromRun count (appendBytes (encode (.runemit count)) (noteAlpha px s))) := by
  have hrun := run_sub_toNat hle
  have hw : (s.wptr + BitVec.ofNat 64 1).toNat = s.wptr.toNat + 1 := wptr_add_toNat hf
  have hrun_le := h.run_le
  have hlo := h.wptr_ge
  refine ⟨h.inWf, Memory.wf_writeBytes _ _ h.outWf, h.errNone, h.pos_le, ?_, ?_, ?_, h.prevCached, h.slots, ?_, ?_⟩
  · change (s.run - BitVec.ofNat 64 count).toNat ≤ s.pos.toNat
    omega
  · change 14 ≤ (s.wptr + BitVec.ofNat 64 1).toNat
    omega
  · change (s.wptr + BitVec.ofNat 64 1).toNat ≤ s.outcap.toNat
    omega
  · intro j hj hhi
    change s.pos.toNat - (s.run - BitVec.ofNat 64 count).toNat ≤ j at hj
    exact h.pendingRun j (by omega) hhi
  · intro a ha hlt
    exact isSome_read_appendBytes (s := noteAlpha px s) hf hlt (h.chunksWritten a ha)

/-- A chunk operation ends a pixel with no run pending and commits it. -/
theorem ScanInv.chunk {s : State} (h : ScanInv s) (px : Pixel) {bytes : List Byte} (hr : s.run = 0)
    (hf : s.wptr.toNat + bytes.length ≤ s.outcap.toNat) :
    ScanInv (nextPos (commit px (appendBytes bytes (noteAlpha px s)))) := by
  have hw : (s.wptr + BitVec.ofNat 64 bytes.length).toNat = s.wptr.toNat + bytes.length := wptr_add_toNat hf
  have hlo := h.wptr_ge
  have hrun : s.run.toNat = 0 := by rw [hr]; rfl
  refine ⟨h.inWf, Memory.wf_writeBytes _ _ h.outWf, h.errNone, ?_, ?_, ?_, ?_, prevCached_commit px _,
    slots_commit px h.slots, ?_, ?_⟩
  · change (if sentinel s then s.pos else s.pos + 1).toNat ≤ npix s
    split_ifs with hs
    · exact h.pos_le
    · have hlt := pos_lt_of_real (Bool.eq_false_iff.mpr hs) h.pos_le
      exact (pos_add_one_toNat hlt).trans_le hlt
  · exact hrun.trans_le (Nat.zero_le _)
  · change 14 ≤ (s.wptr + BitVec.ofNat 64 bytes.length).toNat
    omega
  · change (s.wptr + BitVec.ofNat 64 bytes.length).toNat ≤ s.outcap.toNat
    omega
  · intro j hj hhi
    change _ - s.run.toNat ≤ j at hj
    omega
  · intro a ha hlt
    exact isSome_read_appendBytes (s := noteAlpha px s) hf hlt (h.chunksWritten a ha)

/-- A scan move that answers keeps what the invariant says of the scan. -/
theorem ScanMove.scanInv {s t : State} {px : Pixel} (hm : ScanMove s px t) (hc : cur s = some px) (h : ScanInv s) :
    ScanInv t := by
  cases hm with
  | acc hs heq => exact heq ▸ h.acc hs (heq ▸ hc)
  | flush count hb hr hcount hf => exact h.flush px (hcount ▸ Nat.min_le_left _ _) hf
  | chunk i hb hr hi hf => exact h.chunk px hr hf

/-- A scan move that ends the scan stands at the sentinel with no run pending (40_sequencer.md R78, R79). -/
theorem ScanMove.scanOver {s t : State} {px : Pixel} (hm : ScanMove s px t) (hp : s.phase = .scan)
    (ht : t.phase = .hdr) : t.pos.toNat = npix t ∧ t.run = 0 := by
  cases hm with
  | acc => simp [hp] at ht
  | flush count hb hr hcount hf =>
    simp only [takeFromRun_phase, appendBytes_phase, noteAlpha_phase, hp] at ht
    split_ifs at ht with hend
    obtain ⟨hzero, hs⟩ := hend
    exact ⟨(sentinel_iff _).mp hs, hzero⟩
  | chunk i hb hr hi hf =>
    simp only [nextPos_phase, commit_phase, appendBytes_phase, noteAlpha_phase, hp] at ht
    split_ifs at ht with hs
    refine ⟨?_, hr⟩
    simp only [nextPos_pos, if_pos hs]
    exact (sentinel_iff _).mp hs

/-! ### Every step -/

/-- The fault keeps the invariant from any state whose memories are canonical. -/
theorem inv_raiseAlloc {s : State} (hin : s.inp.wf) (hout : s.out.wf) : Inv (raiseAlloc s) :=
  .of_rest rfl hin hout rfl (by simp)

theorem scanInv_initEncode {s : State} (h : Inv s) (hroom : 14 ≤ s.outcap.toNat) : ScanInv (initEncode s) where
  inWf := h.inWf
  outWf := h.outWf
  errNone := rfl
  pos_le := Nat.zero_le _
  run_le := Nat.le_refl _
  wptr_ge := Nat.le_refl _
  wptr_le := hroom
  prevCached := (congrArg _ hashOf_seed).trans (initial_slot 53)
  slots k := by
    rw [initEncode_cache, initial_slot]
    split_ifs with hk
    · exact .inl (hashOf_seed.trans hk.symm)
    · exact .inr rfl
  pendingRun j _ hj := absurd hj (Nat.not_lt_zero j)
  chunksWritten a ha hlt := absurd ha (Nat.not_le.mpr hlt)

/-- START begins an encode in which the invariant holds, or faults (40_sequencer.md R70). -/
theorem Inv.startState {s : State} (h : Inv s) : Inv (startState s) := by
  unfold Machine.startState
  split_ifs with hcap
  · exact inv_raiseAlloc h.inWf h.outWf
  · have hi := scanInv_initEncode h (Nat.not_lt.mp hcap)
    have hscan : ScanInv { initEncode s with phase := .scan } := { hi with }
    exact hscan.inv rfl (by simp) (by simp)

/-- HEADER keeps the chunks and fills the bytes below offset 14. -/
theorem Inv.header {s : State} (h : Inv s) (hp : s.phase = .hdr) :
    Inv { s with out := s.out.writeBytes 0 (encode (headerOf s)), phase := .fin } := by
  have hi := h.scanInv (busy_of_hdr hp)
  have hscan : ScanInv { s with out := s.out.writeBytes 0 (encode (headerOf s)), phase := .fin } :=
    { hi with
      outWf := Memory.wf_writeBytes _ _ hi.outWf
      chunksWritten := fun a ha hlt => Memory.isSome_read_writeBytes _ _ _ (.inr (hi.chunksWritten a ha hlt)) }
  have hlen : (encode (headerOf s)).length = 14 := rfl
  exact hscan.inv rfl (fun _ => h.scanOver (.inl hp))
    (fun _ a ha => Memory.isSome_read_writeBytes _ _ _ (.inl ⟨Nat.zero_le a, by omega⟩))

/-- ENDMARK finishes a stream that has a value at every byte (45_framing.md R140). -/
theorem Inv.endmark {s : State} (h : Inv s) (hp : s.phase = .fin) (hf : s.wptr.toNat + 8 ≤ s.outcap.toNat) :
    Inv { appendBytes (encode .endmark) s with phase := .done } := by
  have hi := h.scanInv (busy_of_fin hp)
  have hw : (s.wptr + BitVec.ofNat 64 8).toNat = s.wptr.toNat + 8 := wptr_add_toNat hf
  refine .of_rest rfl hi.inWf (Memory.wf_writeBytes _ _ hi.outWf) (by simpa using hi.errNone) fun _ =>
    ⟨?_, fun a ha => ?_⟩
  · have hlo := hi.wptr_ge
    change 22 ≤ (s.wptr + BitVec.ofNat 64 8).toNat
    omega
  · refine isSome_read_appendBytes hf ha fun hlt => ?_
    by_cases h14 : a < 14
    · exact h.headerWritten hp a h14
    · exact hi.chunksWritten a (Nat.not_lt.mp h14) hlt

/-- Every move of the block keeps the invariant. -/
theorem BlockMove.inv {s t : State} (hm : BlockMove s t) (h : Inv s) : Inv t := by
  cases hm with
  | rest => exact h
  | scan px _ hp hc hm =>
    have ht := hm.phase_cases hp
    refine (hm.scanInv hc (h.scanInv (busy_of_scan hp))).inv ?_ ?_ ?_
    · exact ht.elim busy_of_scan busy_of_hdr
    · rintro (hph | hph)
      · exact hm.scanOver hp hph
      · simp [hph] at ht
    · intro hph
      simp [hph] at ht
  | scanFault => exact inv_raiseAlloc h.inWf h.outWf
  | header hp => exact h.header hp
  | endmark hp hf => exact h.endmark hp hf
  | endFault => exact inv_raiseAlloc h.inWf h.outWf

theorem setConfig_of_busy {s : State} (hb : busy s = true) (r : Csr) (v : Word64) : setConfig r v s = s := by
  simp [setConfig, hb]

/-- A register write leaves the phase, the stream and the memories as they are. -/
theorem setConfig_frame (r : Csr) (v : Word64) (s : State) :
    (setConfig r v s).phase = s.phase ∧ (setConfig r v s).wptr = s.wptr ∧ (setConfig r v s).inp = s.inp
      ∧ (setConfig r v s).out = s.out := by
  unfold setConfig
  split_ifs
  · exact ⟨rfl, rfl, rfl, rfl⟩
  · cases r <;> exact ⟨rfl, rfl, rfl, rfl⟩

/-- A register write keeps the invariant: while BUSY it does nothing, and at rest no clause is about the
configuration. -/
theorem Inv.setConfig {s : State} (h : Inv s) (r : Csr) (v : Word64) : Inv (setConfig r v s) := by
  cases hb : busy s with
  | true => rwa [setConfig_of_busy hb]
  | false =>
    obtain ⟨hp, hw, hin, hout⟩ := setConfig_frame r v s
    refine .of_rest ((busy_congr hp).trans hb) (hin ▸ h.inWf) (hout ▸ h.outWf) ?_ ?_
    · rw [setConfig_err, hp]
      exact h.errCode
    · rw [hp, hw, hout]
      exact h.doneWritten

theorem Inv.placeIn {s : State} (h : Inv s) (hb : busy s = false) (a : Nat) (v : Byte) :
    Inv { s with inp := s.inp.write a v } :=
  .of_rest hb (Memory.wf_write a v h.inWf) h.outWf h.errCode h.doneWritten

theorem Inv.placeOut {s : State} (h : Inv s) (hb : busy s = false) (a : Nat) (v : Byte) :
    Inv { s with out := s.out.write a v } := by
  refine .of_rest hb h.inWf (Memory.wf_write a v h.outWf) h.errCode fun hp => ?_
  obtain ⟨hlen, hsome⟩ := h.doneWritten hp
  exact ⟨hlen, fun x hx => Memory.isSome_read_write _ _ _ _ (hsome x hx)⟩

theorem Inv.hardReset {s : State} (h : Inv s) : Inv (hardReset s) :=
  .of_rest rfl h.inWf h.outWf rfl (by simp)

/-- The invariant does not look at the host's plans. -/
theorem Inv.withHost {s : State} (h : Inv s) (rest : List HostEvent) : Inv { s with host := rest } :=
  { h with }

/-- Settles O41: the block's moves keep the invariant, and so does each action of the host. -/
theorem stepKeepsTheInvariant : Obligations.StepKeepsTheInvariant := by
  unfold Obligations.StepKeepsTheInvariant
  intro s t h hstep
  rcases step_next hstep with ⟨-, hmove⟩ | ⟨e, rest, -, hact⟩
  · exact hmove.inv h
  · have hr := h.withHost rest
    rcases hact with ⟨-, hmove⟩ | ⟨-, rfl⟩ | ⟨v, -, -, rfl⟩ | ⟨r, v, -, rfl⟩ | ⟨a, v, -, hb, rfl⟩ | ⟨a, v, -, hb, rfl⟩
    · exact hmove.inv hr
    · exact hr.hardReset
    · split_ifs
      · exact hr
      · exact hr.startState
    · exact hr.setConfig r v
    · exact hr.placeIn hb a v
    · exact hr.placeOut hb a v

/-- Settles O40: at reset the block is at rest with empty memories. -/
theorem resetMeetsTheInvariant : Obligations.ResetMeetsTheInvariant := by
  unfold Obligations.ResetMeetsTheInvariant
  exact .of_rest rfl List.Pairwise.nil List.Pairwise.nil rfl (fun hp => nomatch hp)

end Sys2Proof.Machine
end

section
/-! What the operations compute: operands within their fields (30_encoding.md section 3), deltas (43_delta.md), and the
hash (42_index.md). -/

namespace Sys2Proof.Machine

/-- The decision tree chooses an operation whose operands fit their fields. -/
theorem select_wellFormed (px : Pixel) (s : State) : (select px s).wellFormed = true := by
  rcases select_cases px s with ⟨h, -⟩ | ⟨h, -, hpending⟩ | ⟨h, -⟩ <;> rw [h]
  · rfl
  · simp only [Instr.wellFormed, decide_eq_true_eq]
    omega
  · exact chunkFor_wellFormed _ _ _

/-- Settles O6: in SCAN the decision tree chooses the operation; HEADER and ENDMARK take any operands. -/
theorem performedOperandsFitTheirFields : Obligations.PerformedOperandsFitTheirFields := by
  unfold Obligations.PerformedOperandsFitTheirFields
  intro s i hc
  cases hp : s.phase with
  | scan =>
    obtain ⟨px, -, rfl⟩ := current_scan hp hc
    exact select_wellFormed px s
  | hdr =>
    obtain rfl : headerOf s = i := by simpa [current_of_hdr hp] using hc
    rfl
  | fin =>
    obtain rfl : Instr.endmark = i := by simpa [current_of_fin hp] using hc
    rfl
  | idle | done | error => simp [current, hp] at hc

/-- The wrapped difference of two bytes is their difference modulo 256. -/
theorem toNat_byte_sub (x y : Byte) : ((x - y).toNat : Int) = ((x.toNat : Int) - y.toNat) % 256 := by
  have hx := x.isLt
  have hy := y.isLt
  rw [BitVec.toNat_sub]
  omega

/-- Settles O7: `toInt` reads the upper half of the byte values as negative. -/
theorem deltaIsTheWrappedSignedDifference : Obligations.DeltaIsTheWrappedSignedDifference := by
  unfold Obligations.DeltaIsTheWrappedSignedDifference
  intro x y
  rw [← toNat_byte_sub, sdelta8, BitVec.toInt_eq_toNat_cond]
  generalize (x - y).toNat = d
  split_ifs <;> omega

/-- An 8-bit wrap read as signed lands in `-128 .. 127`. -/
theorem toInt_ofInt_byte (v : Int) :
    (BitVec.ofInt 8 v).toInt = if v % 256 < 128 then v % 256 else v % 256 - 256 := by
  rw [BitVec.toInt_ofInt, Int.bmod_def]
  norm_num

/-- Settles O8: with the green delta in its range the exact difference is far from any multiple of 256 but 0, so the
wrap cannot bring it into the range of the test. -/
theorem wrappedLumaDifferenceDecidesAlike : Obligations.WrappedLumaDifferenceDecidesAlike := by
  unfold Obligations.WrappedLumaDifferenceDecidesAlike
  intro x y u v hlo hhi
  obtain ⟨hmin, hmax⟩ := sdelta8_range x y
  rw [toInt_ofInt_byte]
  split_ifs <;> omega

/-- The sum taken in words of `n` bits is the exact sum wrapped. -/
theorem hashSum_in_words (n : Nat) (p : Pixel) :
    BitVec.ofNat n 3 * BitVec.ofNat n p.r.toNat + BitVec.ofNat n 5 * BitVec.ofNat n p.g.toNat
      + BitVec.ofNat n 7 * BitVec.ofNat n p.b.toNat + BitVec.ofNat n 11 * BitVec.ofNat n p.a.toNat
      = BitVec.ofNat n (hashSum p) := by
  simp only [hashSum, BitVec.ofNat_add, BitVec.ofNat_mul]

/-- Settles O9: `64` divides `2 ^ n`, so the wrap does not touch the remainder. -/
theorem hashIgnoresTheSumWidth : Obligations.HashIgnoresTheSumWidth := by
  unfold Obligations.HashIgnoresTheSumWidth
  intro n p hn
  have hdvd : 64 ∣ 2 ^ n := pow_dvd_pow 2 hn
  rw [hashSum_in_words, BitVec.toNat_ofNat, Nat.mod_mod_of_dvd _ hdvd]
  rfl

end Sys2Proof.Machine
end

section
/-! The flush of a broken run (41_run.md R92, R93): the split law, the bounded form, and the steps of the block. -/

namespace Sys2Proof.Machine

/-! ### The chunks of a flush -/

theorem flushLoop_congr {fuel fuel' run : Nat} (h : run ≤ fuel) (h' : run ≤ fuel') :
    flushLoop fuel run = flushLoop fuel' run := by
  induction fuel generalizing fuel' run with
  | zero =>
    obtain rfl : run = 0 := Nat.le_zero.mp h
    cases fuel' <;> simp [flushLoop]
  | succ fuel ih =>
    cases fuel' with
    | zero =>
      obtain rfl : run = 0 := Nat.le_zero.mp h'
      simp [flushLoop]
    | succ fuel' =>
      simp only [flushLoop]
      split_ifs with h0
      · rfl
      · have hmax : Config.runMax = 62 := rfl
        rw [ih (fuel' := fuel') (by omega) (by omega)]

@[simp] theorem flushRun_zero : flushRun 0 = [] := rfl

/-- A flush emits its first chunk and then flushes what is left (40_sequencer.md R82). -/
theorem flushRun_of_pos {run : Nat} (h : 0 < run) :
    flushRun run = .runemit (min run 62) :: flushRun (run - min run 62) := by
  obtain ⟨k, rfl⟩ := Nat.exists_eq_add_one_of_ne_zero h.ne'
  have hmax : Config.runMax = 62 := rfl
  unfold flushRun
  rw [flushLoop, if_neg (by omega)]
  exact congrArg _ (flushLoop_congr (by omega) (Nat.le_refl _))

/-- 41_run.md R92: full chunks, and the remainder. -/
theorem flushRun_split (q m : Nat) (hm : m < 62) :
    flushRun (62 * q + m) = List.replicate q (.runemit 62) ++ if 0 < m then [.runemit m] else [] := by
  induction q with
  | zero =>
    simp only [Nat.mul_zero, Nat.zero_add, List.replicate_zero, List.nil_append]
    split_ifs with h
    · rw [flushRun_of_pos h, Nat.min_eq_left hm.le, Nat.sub_self, flushRun_zero]
    · obtain rfl : m = 0 := by omega
      exact flushRun_zero
  | succ q ih =>
    rw [flushRun_of_pos (by omega), Nat.min_eq_right (by omega), show 62 * (q + 1) + m - 62 = 62 * q + m by omega, ih]
    rfl

/-- A flush has `ceil(N/62)` chunks. -/
theorem length_flushRun (n : Nat) : (flushRun n).length = (n + 61) / 62 := by
  obtain ⟨q, m, hm, rfl⟩ : ∃ q m, m < 62 ∧ n = 62 * q + m := ⟨n / 62, n % 62, by omega, by omega⟩
  rw [flushRun_split q m hm]
  split_ifs <;> simp <;> omega

/-- The bounded form keeps the remainder and has emitted the full chunks (41_run.md R93). -/
theorem boundedRun_eq (n : Nat) : boundedRun n = (n % 62, List.replicate (n / 62) (.runemit 62)) := by
  induction n with
  | zero => rfl
  | succ n ih =>
    simp only [boundedRun, ih, Config.runMax]
    split_ifs with h
    · rw [show (n + 1) / 62 = n / 62 + 1 by omega, List.replicate_succ', show (n + 1) % 62 = 0 by omega]
    · rw [show (n + 1) / 62 = n / 62 by omega, show (n + 1) % 62 = n % 62 + 1 by omega]

/-- Settles O22: both forms are the full chunks and the remainder. -/
theorem boundedRunFormEmitsTheSameChunks : Obligations.BoundedRunFormEmitsTheSameChunks := by
  unfold Obligations.BoundedRunFormEmitsTheSameChunks
  intro n
  have hflush := flushRun_split (n / 62) (n % 62) (Nat.mod_lt _ (by decide))
  rw [Nat.div_add_mod] at hflush
  rw [boundedFlush, boundedRun_eq, hflush]

/-! ### The steps of a flush -/

theorem Memory.writeBytes_append (m : Memory) (a : Nat) (xs ys : List Byte) :
    m.writeBytes a (xs ++ ys) = (m.writeBytes a xs).writeBytes (a + xs.length) ys := by
  induction xs generalizing m a with
  | nil => rfl
  | cons x xs ih =>
    simp only [List.cons_append, Memory.writeBytes, List.length_cons, ih]
    rw [Nat.add_right_comm, Nat.add_assoc]

/-- What the whole flush of a broken run leaves: its bytes, no run, and the end of the scan at the sentinel. -/
def flushed (px : Pixel) (s : State) : State :=
  { noteAlpha px s with
    run := 0
    out := s.out.writeBytes s.wptr.toNat ((flushRun s.run.toNat).flatMap encode)
    wptr := s.wptr + BitVec.ofNat 64 (flushRun s.run.toNat).length
    phase := if sentinel s then .hdr else .scan }

/-- The state between two chunks of a flush. -/
def flushOne (px : Pixel) (s : State) : State :=
  takeFromRun (min s.run.toNat 62) (appendBytes (encode (.runemit (min s.run.toNat 62))) (noteAlpha px s))

/-- A pending run that the pixel under evaluation breaks. -/
structure Broken (px : Pixel) (s : State) : Prop where
  host : s.host = []
  scan : s.phase = .scan
  cur : cur s = some px
  breaks : sentinel s = true ∨ px ≠ s.prev
  pending : 0 < s.run.toNat

theorem Broken.step_eq {px : Pixel} {s : State} (h : Broken px s) (hroom : s.wptr.toNat + 1 ≤ s.outcap.toNat) :
    step s = .next (flushOne px s) := by
  have hcur : current s = some (.runemit (min s.run.toNat 62)) := by
    rw [current_of_scan h.scan h.cur, select_runemit h.breaks h.pending rfl]
  rw [step_of_host_nil h.host, blockStep_of_current hcur]
  exact exec_runemit_of_room h.scan h.cur h.breaks h.pending rfl hroom

theorem flushOne_run_toNat (px : Pixel) (s : State) : (flushOne px s).run.toNat = s.run.toNat - min s.run.toNat 62 :=
  run_sub_toNat (Nat.min_le_left _ _)

/-- The phase between two chunks is still SCAN; after the last the scan is over at the sentinel. -/
theorem flushOne_phase {px : Pixel} {s : State} (hp : s.phase = .scan) :
    (flushOne px s).phase = if s.run.toNat ≤ 62 ∧ sentinel s = true then .hdr else .scan := by
  have hle : s.run.toNat = min s.run.toNat 62 ↔ s.run.toNat ≤ 62 := by omega
  have h := takeFromRun_phase_of_scan
    (s := appendBytes (encode (.runemit (min s.run.toNat 62))) (noteAlpha px s)) hp (Nat.min_le_left s.run.toNat 62)
  simp only [sentinel_iff, ← hle]
  exact h

/-- What is left of a longer run is still broken by the same pixel. -/
theorem Broken.next {px : Pixel} {s : State} (h : Broken px s) (hlong : 62 < s.run.toNat) :
    Broken px (flushOne px s) where
  host := h.host
  scan := by rw [flushOne_phase h.scan, if_neg (by omega)]
  cur := h.cur
  breaks := h.breaks
  pending := by
    rw [flushOne_run_toNat]
    omega

/-- The first chunk and the flush of what is left are the flush of the whole. -/
theorem flushed_flushOne {px : Pixel} {s : State} (hpending : 0 < s.run.toNat)
    (hroom : s.wptr.toNat + 1 ≤ s.outcap.toNat) : flushed px (flushOne px s) = flushed px s := by
  have hsplit := flushRun_of_pos hpending
  have hw : (flushOne px s).wptr.toNat = s.wptr.toNat + 1 := wptr_add_toNat hroom
  have hlen : (encode (.runemit (min s.run.toNat 62))).length = 1 := rfl
  have hout : (flushOne px s).out.writeBytes (flushOne px s).wptr.toNat
        ((flushRun (flushOne px s).run.toNat).flatMap encode)
      = s.out.writeBytes s.wptr.toNat ((flushRun s.run.toNat).flatMap encode) := by
    rw [hw, flushOne_run_toNat, hsplit, List.flatMap_cons, Memory.writeBytes_append, hlen]
    rfl
  have hwptr : (flushOne px s).wptr + BitVec.ofNat 64 (flushRun (flushOne px s).run.toNat).length
      = s.wptr + BitVec.ofNat 64 (flushRun s.run.toNat).length := by
    have hone : (flushOne px s).wptr = s.wptr + BitVec.ofNat 64 1 := rfl
    rw [hone, flushOne_run_toNat, hsplit, List.length_cons, BitVec.add_assoc, ← BitVec.ofNat_add, Nat.add_comm 1]
  have haseen : (noteAlpha px (flushOne px s)).aseen = (noteAlpha px s).aseen := by
    change ((s.aseen || _) || (!sentinel s && _)) = _
    rw [Bool.or_assoc, Bool.or_self]
    rfl
  unfold flushed
  rw [hout, hwptr]
  simp only [noteAlpha_aseen] at haseen
  simp only [noteAlpha, haseen]
  rfl

/-- A chunk that empties the run is the whole flush. -/
theorem flushOne_eq_flushed {px : Pixel} {s : State} (hp : s.phase = .scan) (hpending : 0 < s.run.toNat)
    (hshort : s.run.toNat ≤ 62) : flushOne px s = flushed px s := by
  have hmin : min s.run.toNat 62 = s.run.toNat := Nat.min_eq_left hshort
  have hflush : flushRun s.run.toNat = [.runemit s.run.toNat] := by
    rw [flushRun_of_pos hpending, hmin, Nat.sub_self, flushRun_zero]
  have hzero : (flushOne px s).run = 0 := (run_sub_eq_zero_iff (Nat.min_le_left _ _)).mpr hmin.symm
  have hphase : (flushOne px s).phase = if sentinel s then .hdr else .scan := by
    rw [flushOne_phase hp]
    simp [hshort]
  calc flushOne px s
      = { flushOne px s with run := 0, phase := if sentinel s then .hdr else .scan } := by rw [← hzero, ← hphase]
    _ = flushed px s := by
      simp only [flushed, hflush, flushOne, hmin, List.flatMap_cons, List.flatMap_nil, List.append_nil]
      rfl

/-- The flush of a broken run that finds room takes one step a chunk. -/
theorem Broken.run_eq {px : Pixel} {s : State} (h : Broken px s)
    (hroom : s.wptr.toNat + (flushRun s.run.toNat).length ≤ s.outcap.toNat) :
    Host.Core.run core (flushRun s.run.toNat).length s = .next (flushed px s) := by
  generalize hn : s.run.toNat = n at hroom
  induction n using Nat.strong_induction_on generalizing s with
  | _ n ih =>
    subst hn
    have hlen : (flushRun s.run.toNat).length = (flushRun (flushOne px s).run.toNat).length + 1 := by
      rw [flushRun_of_pos h.pending, flushOne_run_toNat, List.length_cons]
    have hroom1 : s.wptr.toNat + 1 ≤ s.outcap.toNat := by omega
    rw [hlen, run_succ_eq_next_iff]
    refine ⟨_, h.step_eq hroom1, ?_⟩
    by_cases hlong : 62 < s.run.toNat
    · have hw : (flushOne px s).wptr.toNat = s.wptr.toNat + 1 := wptr_add_toNat hroom1
      have hcap : (flushOne px s).outcap = s.outcap := rfl
      rw [← flushed_flushOne h.pending hroom1]
      refine ih _ ?_ (h.next hlong) rfl ?_
      · rw [flushOne_run_toNat]
        omega
      · rw [hw, hcap]
        omega
    · have hzero : (flushOne px s).run.toNat = 0 := by
        rw [flushOne_run_toNat]
        omega
      rw [hzero, flushOne_eq_flushed h.scan h.pending (by omega)]
      rfl

/-- The bytes of the full chunks and the remainder. -/
theorem flatMap_encode_flushRun (q m : Nat) (hm : m < 62) :
    (flushRun (62 * q + m)).flatMap encode
      = List.replicate q 0xFD ++ if 0 < m then [BitVec.ofNat 8 (0xC0 + (m - 1))] else [] := by
  have hfull : encode (.runemit 62) = [0xFD] := rfl
  have hreplicate : (List.replicate q (Instr.runemit 62)).flatMap encode = List.replicate q 0xFD := by
    induction q with
    | zero => rfl
    | succ q ih => rw [List.replicate_succ, List.flatMap_cons, ih, hfull]; rfl
  rw [flushRun_split q m hm, List.flatMap_append, hreplicate]
  split_ifs
  · rw [List.flatMap_cons, List.flatMap_nil, List.append_nil, encode_runemit hm.le]
  · rfl

/-- Every chunk of a flush is one byte. -/
theorem length_flatMap_encode_flushRun (n : Nat) : ((flushRun n).flatMap encode).length = (flushRun n).length := by
  induction n using Nat.strong_induction_on with
  | _ n ih =>
    by_cases h : 0 < n
    · rw [flushRun_of_pos h, List.flatMap_cons, List.length_append, List.length_cons, ih _ (by omega), Nat.add_comm]
      rfl
    · obtain rfl : n = 0 := by omega
      rfl

/-- Settles O21: the steps of the flush leave `flushed`, whose bytes are the full chunks and the remainder. -/
theorem brokenRunIsSplitIntoFullChunks : Obligations.BrokenRunIsSplitIntoFullChunks := by
  unfold Obligations.BrokenRunIsSplitIntoFullChunks
  intro s px n q m hhost hp hc hbreak hn hpending hsplit hm hroom
  have hlen : (flushRun s.run.toNat).length = (n + 61) / 62 := hn ▸ length_flushRun _
  have hbytes : (flushRun s.run.toNat).flatMap encode
      = List.replicate q 0xFD ++ if 0 < m then [BitVec.ofNat 8 (0xC0 + (m - 1))] else [] := by
    rw [← hn, hsplit, flatMap_encode_flushRun q m hm]
  rw [← hlen] at hroom ⊢
  have hbroken : Broken px s := ⟨hhost, hp, hc, hbreak, hn ▸ hpending⟩
  refine ⟨flushed px s, hbroken.run_eq hroom, ?_, ?_, wptr_add_toNat hroom, rfl, rfl, rfl, rfl, rfl⟩
  · rw [← hbytes]
    exact holds_writeBytes _ _ _
  · rw [← length_flatMap_encode_flushRun]
    exact sameOutside_writeBytes _ _ _

end Sys2Proof.Machine
end

section
/-! The steps of the scan and their frames (40_sequencer.md sections 2 and 5): what each operation that answers leaves
unchanged, the artifact at the sentinel, and the operations that are refused. -/

namespace Sys2Proof.Machine

/-! ### Frames -/

theorem sameOutside_refl (m : Memory) (a n : Nat) : sameOutside m m a n := fun _ _ => rfl

theorem sameSurroundings_startState (s : State) : sameSurroundings s (startState s) := by
  rw [startState_eq]
  exact ⟨rfl, rfl, rfl, rfl, rfl, rfl⟩

theorem startState_out (s : State) : (startState s).out = s.out := by
  rw [startState_eq]
  rfl

theorem exec_runacc_next {s t : State} (h : exec .runacc s = .next t) : ∃ px, t = extendRun (noteAlpha px s) := by
  obtain ⟨-, px, -, -, hb | ⟨hb, -⟩⟩ := scanOp_next (body := accBody) h
  · exact ⟨px, (Option.some.inj hb).symm⟩
  · cases hb

theorem exec_runemit_next {count : Nat} {s t : State} (h : exec (.runemit count) s = .next t) :
    (∃ px, t = takeFromRun count (appendBytes (encode (.runemit count)) (noteAlpha px s))) ∨ t = raiseAlloc s := by
  obtain ⟨-, px, -, -, hb | ⟨-, ht⟩⟩ := scanOp_next (body := runBody count) h
  · exact .inl ⟨px, (runBody_eq_some_iff.mp hb).2⟩
  · exact .inr ht

theorem exec_pixelChunk_next {i : Instr} {s t : State} (hi : isPixelChunk i = true) (h : exec i s = .next t) :
    (∃ px, cur s = some px ∧ t = nextPos (commit px (appendBytes (encode i) (noteAlpha px s)))) ∨ t = raiseAlloc s := by
  rw [exec_pixelChunk hi] at h
  obtain ⟨-, px, hc, -, hb | ⟨-, ht⟩⟩ := scanOp_next h
  · exact .inl ⟨px, hc, (chunkBody_eq_some_iff.mp hb).2⟩
  · exact .inr ht

theorem exec_header_next {w h : Word32} {c cs : Byte} {s t : State} (hexec : exec (.header w h c cs) s = .next t) :
    t = { s with out := s.out.writeBytes 0 (encode (.header w h c cs)), phase := .fin } := by
  simp only [exec, execHeader] at hexec
  split_ifs at hexec
  cases hexec
  rfl

theorem exec_endmark_next {s t : State} (h : exec .endmark s = .next t) :
    t = { appendBytes (encode .endmark) s with phase := .done } ∨ t = raiseAlloc s := by
  simp only [exec, execEndmark] at h
  split_ifs at h
  split at h
  · rename_i u hu
    cases h
    exact .inl (by rw [(emit_eq_some_iff.mp hu).2])
  · cases h
    exact .inr rfl

/-- Settles O24: START writes datapath registers, PHASE and ERR; RUNACC writes RUN, POS and ASEEN. -/
theorem nonStoringFrame : Obligations.NonStoringFrame := by
  unfold Obligations.NonStoringFrame
  constructor
  · intro s t h
    obtain rfl : t = if busy s then s else startState s := (Host.Outcome.next.inj h).symm
    split_ifs
    · exact ⟨⟨rfl, rfl, rfl, rfl, rfl, rfl⟩, fun _ => rfl⟩
    · exact ⟨sameSurroundings_startState s, fun a => by rw [startState_out]⟩
  · intro s t h
    obtain ⟨px, rfl⟩ := exec_runacc_next h
    exact ⟨⟨rfl, rfl, rfl, rfl, rfl, rfl⟩, fun _ => rfl, rfl, rfl, rfl, rfl, rfl⟩

/-- Settles O25: the append, Commit and Next leave everything else; the fault leaves all but ERR and PHASE. -/
theorem pixelChunkFrame : Obligations.PixelChunkFrame := by
  unfold Obligations.PixelChunkFrame
  intro i s t hi h
  rcases exec_pixelChunk_next hi h with ⟨px, hc, rfl⟩ | rfl
  · refine ⟨⟨rfl, rfl, rfl, rfl, rfl, rfl⟩, rfl, sameOutside_writeBytes _ _ _, fun px' hc' k hk => ?_, .inl rfl⟩
    obtain rfl : px = px' := by simpa [hc] using hc'
    simp only [nextPos_cache, commit_cache, appendBytes_cache, noteAlpha_cache]
    rw [get_set_slot, if_neg hk]
  · exact ⟨⟨rfl, rfl, rfl, rfl, rfl, rfl⟩, rfl, sameOutside_refl _ _ _, fun _ _ _ _ => rfl, .inr rfl⟩

/-- Settles O26: the append and the subtraction from RUN leave everything else; the fault leaves all but ERR and
PHASE. -/
theorem runemitFrame : Obligations.RunemitFrame := by
  unfold Obligations.RunemitFrame
  intro count s t h
  rcases exec_runemit_next h with ⟨px, rfl⟩ | rfl
  · exact ⟨⟨rfl, rfl, rfl, rfl, rfl, rfl⟩, rfl, rfl, rfl, sameOutside_writeBytes _ _ _, .inl rfl⟩
  · exact ⟨⟨rfl, rfl, rfl, rfl, rfl, rfl⟩, rfl, rfl, rfl, sameOutside_refl _ _ _, .inr rfl⟩

/-- Settles O27: HEADER stores at offset 0 and moves the phase; ENDMARK appends and moves the phase, or faults. -/
theorem framingFrame : Obligations.FramingFrame := by
  unfold Obligations.FramingFrame
  constructor
  · intro w h c cs s t hexec
    obtain rfl := exec_header_next hexec
    exact ⟨sameOutside_writeBytes _ _ _, rfl⟩
  · intro s t h
    rcases exec_endmark_next h with rfl | rfl
    · exact ⟨sameOutside_writeBytes _ _ _, .inl rfl⟩
    · exact ⟨sameOutside_refl _ _ _, .inr rfl⟩

/-! ### The artifact -/

/-- Tests 3 to 5 give INDEX exactly on a cache hit, with the pixel's slot. -/
theorem chunkFor_eq_index_iff {cache : Vector Pixel 64} {prev px : Pixel} {slot : Nat} :
    chunkFor cache prev px = .index slot ↔ cache.get (hashOf px) = px ∧ slot = (hashOf px).val := by
  unfold chunkFor
  dsimp only
  split_ifs with h <;> simp [h, eq_comm]

/-- The sentinel with no run pending reaches the chunk tests with the zero pixel (40_sequencer.md R80). -/
theorem reachesChunkTests_of_sentinel {s : State} (hp : s.phase = .scan) (hs : sentinel s = true) (hr : s.run = 0) :
    reachesChunkTests Pixel.zero s :=
  ⟨hp, cur_of_not_real ((sentinel_iff s).mp hs).ge, .inl hs, hr⟩

/-- Settles O23: the artifact is the chunk of the zero pixel, whose slot is 0. -/
theorem sentinelArtifactEndsTheScan : Obligations.SentinelArtifactEndsTheScan := by
  unfold Obligations.SentinelArtifactEndsTheScan
  intro s hp hs hr
  have hreach := reachesChunkTests_of_sentinel hp hs hr
  have ⟨_, hc, hb, _⟩ := hreach
  refine ⟨chunkFor s.cache s.prev Pixel.zero, ?_, chunkFor_isPixelChunk _ _ _, ?_, fun hroom => ?_⟩
  · rw [current_of_scan hp hc, select_of_chunkTests hb hr]
  · rw [chunkFor_eq_index_iff, hashOf_zero]
    simp
  · obtain ⟨t, hexec, -, hcons, -⟩ := (exec_selectedChunk hreach rfl).1 hroom
    obtain ⟨-, -, -, -, -, hprev, hslot, -, hend, -⟩ := hcons
    obtain ⟨hph, hpos, haseen⟩ := hend hs
    exact ⟨t, hexec, hph, hpos, haseen, hprev, hashOf_zero ▸ hslot⟩

/-! ### The block's step -/

/-- The block's turn: no host action is pending, or the host yields. -/
theorem step_eq_blockStep {s u : State}
    (h : (s.host = [] ∧ u = s) ∨ ∃ rest, s.host = .yield :: rest ∧ u = { s with host := rest }) :
    step s = blockStep u := by
  rcases h with ⟨hh, rfl⟩ | ⟨rest, hh, rfl⟩
  · exact step_of_host_nil hh
  · simp only [step, hh, hostAct]

/-- Settles O10: a step is the block's turn, which performs the current operation, and at rest there is none. -/
theorem stepRunsTheSelectedOperation : Obligations.StepRunsTheSelectedOperation := by
  unfold Obligations.StepRunsTheSelectedOperation
  intro s u hturn
  rw [step_eq_blockStep hturn]
  have hcurrent : current u = current s := by rcases hturn with ⟨-, rfl⟩ | ⟨rest, -, rfl⟩ <;> rfl
  have hbusy : busy u = busy s := by rcases hturn with ⟨-, rfl⟩ | ⟨rest, -, rfl⟩ <;> rfl
  refine ⟨fun px hp hc => ?_, fun hp => ?_, fun hp => ?_, fun hp => ?_⟩
  · exact blockStep_of_current (hcurrent.trans (current_of_scan hp hc))
  · exact blockStep_of_current (hcurrent.trans (current_of_hdr hp))
  · exact blockStep_of_current (hcurrent.trans (current_of_fin hp))
  · have hb : busy s = false := by rcases hp with hp | hp | hp <;> simp [busy, hp]
    exact (BlockMove.rest (hbusy.trans hb)).blockStep_eq

/-- The block's step answers, or the pixel under evaluation was not provided (93_implementation_defined.md U12). -/
theorem blockStep_cases (s : State) :
    (∃ t, blockStep s = .next t) ∨
    (blockStep s = .refused .inputMissing ∧ s.phase = .scan ∧ s.pos.toNat < npix s
      ∧ s.inp.pixel s.pos.toNat = none) := by
  cases hc : current s with
  | some i =>
    obtain ⟨t, ht⟩ := exec_current hc
    exact .inl ⟨t, (blockStep_of_current hc).trans ht⟩
  | none =>
    cases hb : busy s with
    | false => exact .inl ⟨s, (BlockMove.rest hb).blockStep_eq⟩
    | true =>
      have hstep : blockStep s = .refused .inputMissing := by simp [blockStep, hc, hb]
      rcases (busy_iff s).mp hb with hp | hp | hp
      · have hcur : cur s = none := by simpa [current, hp] using hc
        have hlt : s.pos.toNat < npix s := by
          by_contra hge
          simp [cur_of_not_real (Nat.not_lt.mp hge)] at hcur
        exact .inr ⟨hstep, hp, hlt, by rwa [cur_of_real hlt] at hcur⟩
      · simp [current_of_hdr hp] at hc
      · simp [current_of_fin hp] at hc

theorem exists_blockStep_of_provided {s : State} (h : provided s) : ∃ t, blockStep s = .next t := by
  rcases blockStep_cases s with ht | ⟨-, -, hlt, hnone⟩
  · exact ht
  · have hsome := h _ hlt
    simp [hnone] at hsome

/-! ### Refusals -/

/-- A scan operation that is not the current one is refused, by the name of the reason. -/
theorem scanOp_of_not_current {i : Instr} (body : Pixel → State → Option State) {s : State}
    (h : current s ≠ some i) :
    scanOp i body s = .refused (if s.phase = .scan ∧ cur s = none then .inputMissing else .notSelected) := by
  by_cases hp : s.phase = .scan
  · cases hc : cur s with
    | none => simp [scanOp, hp, hc]
    | some px =>
      have hsel : select px s ≠ i := by simpa [current_of_scan hp hc] using h
      simp [scanOp, hp, hc, hsel]
  · simp [scanOp, hp]

/-- The operations of the scan are instances of `scanOp`. -/
theorem exec_scanOp {i : Instr} (h : isPixelChunk i = true ∨ isRunChunk i = true ∨ i = .runacc) :
    ∃ body, ∀ s, exec i s = scanOp i body s := by
  cases i with
  | runacc => exact ⟨accBody, fun _ => rfl⟩
  | runemit count => exact ⟨runBody count, fun _ => rfl⟩
  | index | diff | luma | rgb | rgba => exact ⟨_, exec_pixelChunk rfl⟩
  | start | header | endmark => simp [isPixelChunk, isRunChunk] at h

theorem execHeader_of_not_current {w h : Word32} {c cs : Byte} {s : State} (hne : current s ≠ some (.header w h c cs)) :
    exec (.header w h c cs) s = .refused .notSelected := by
  refine if_neg ?_
  rintro ⟨hp, hops⟩
  exact hne (hops ▸ current_of_hdr hp)

theorem execEndmark_of_not_current {s : State} (hne : current s ≠ some .endmark) :
    exec .endmark s = .refused .notSelected :=
  if_neg fun hp => hne (current_of_fin hp)

/-- Settles O32: the scan operations refuse by `scanOp`, HEADER and ENDMARK by their phase and operands. -/
theorem unselectedOperationIsRefused : Obligations.UnselectedOperationIsRefused := by
  unfold Obligations.UnselectedOperationIsRefused
  intro i s hstart hne
  by_cases hscan : isPixelChunk i = true ∨ isRunChunk i = true ∨ i = .runacc
  · obtain ⟨body, hexec⟩ := exec_scanOp hscan
    rw [hexec, scanOp_of_not_current body hne]
    simp only [hscan, and_true]
    exact ⟨fun h => by rw [if_pos h], fun h => by rw [if_neg h]⟩
  · have hrefused : exec i s = .refused .notSelected := by
      cases i with
      | header => exact execHeader_of_not_current hne
      | endmark => exact execEndmark_of_not_current hne
      | start => exact absurd rfl hstart
      | runacc | runemit | index | diff | luma | rgb | rgba => simp [isPixelChunk, isRunChunk] at hscan
    exact ⟨fun ⟨_, _, h⟩ => absurd h hscan, fun _ => hrefused⟩

end Sys2Proof.Machine
end

section
/-! The host's side (10_state.md sections 3, 7 and 8, 20_memory.md section 7): register reads and writes, accesses to
IN and OUT, reset, and where a step stops. -/

namespace Sys2Proof.Machine

/-! ### Register writes -/

theorem exec_start_of_busy {s : State} (hb : busy s = true) : exec .start s = .next s := by
  simp [exec, execStart, hb]

/-- A write that is no START only stores (10_state.md R20, R23). -/
theorem writeCsr_of_store {r : Csr} {v : Word64} (h : ¬ (r = .ctrl ∧ v.extractLsb' 0 1 = 1#1)) (s : State) :
    writeCsr r v s = .next (setConfig r v s) :=
  if_neg h

/-- While BUSY a register write has no effect (10_state.md R21, R23). -/
theorem writeCsr_of_busy {s : State} (hb : busy s = true) (r : Csr) (v : Word64) : writeCsr r v s = .next s := by
  by_cases h : r = .ctrl ∧ v.extractLsb' 0 1 = 1#1
  · obtain ⟨rfl, hv⟩ := h
    exact (writeCsr_ctrl_of_start hv s).trans (exec_start_of_busy hb)
  · rw [writeCsr_of_store h, setConfig_of_busy hb]

theorem exists_writeCsr (r : Csr) (v : Word64) (s : State) : ∃ t, writeCsr r v s = .next t := by
  unfold writeCsr
  split_ifs
  · exact ⟨_, rfl⟩
  · exact ⟨_, rfl⟩

/-- CTRL stores nothing: with bit 0 clear a write of it changes nothing (10_state.md R21). -/
theorem writeCsr_ctrl_of_zero {v : Word64} (h : v.extractLsb' 0 1 = 0#1) (s : State) :
    writeCsr .ctrl v s = .next s := by
  rw [writeCsr_of_store (by simp [h])]
  unfold setConfig
  split_ifs <;> rfl

/-- A register write changes no configuration register but its own, and none while BUSY. -/
theorem setConfig_other (r : Csr) (v : Word64) (s : State) :
    (busy s = true ∨ r ≠ .width → (setConfig r v s).width = s.width)
    ∧ (busy s = true ∨ r ≠ .height → (setConfig r v s).height = s.height)
    ∧ (busy s = true ∨ r ≠ .cspace → (setConfig r v s).cspace = s.cspace)
    ∧ (busy s = true ∨ r ≠ .outcap → (setConfig r v s).outcap = s.outcap) := by
  cases hb : busy s with
  | true => simp [setConfig_of_busy hb]
  | false => cases r <;> simp [setConfig, hb]

/-- A step that is no reset leaves the configuration, or is the host's write to a register. -/
theorem step_config {s t : State} (h : step s = .next t) (hreset : ∀ rest, s.host ≠ .reset :: rest) :
    (t.width = s.width ∧ t.height = s.height ∧ t.cspace = s.cspace ∧ t.outcap = s.outcap)
    ∨ ∃ r v rest, s.host = .write r v :: rest ∧ t = setConfig r v { s with host := rest } := by
  rcases step_next h with ⟨-, hmove⟩ | ⟨e, rest, hh, hact⟩
  · obtain ⟨hw, hht, hcs, hcap, -⟩ := hmove.sameSurroundings
    exact .inl ⟨hw, hht, hcs, hcap⟩
  · rcases hact with ⟨-, hmove⟩ | ⟨rfl, -⟩ | ⟨v, -, -, rfl⟩ | ⟨r, v, rfl, rfl⟩ | ⟨a, v, -, -, rfl⟩ | ⟨a, v, -, -, rfl⟩
    · obtain ⟨hw, hht, hcs, hcap, -⟩ := hmove.sameSurroundings
      exact .inl ⟨hw, hht, hcs, hcap⟩
    · exact absurd hh (hreset rest)
    · split_ifs
      · exact .inl ⟨rfl, rfl, rfl, rfl⟩
      · obtain ⟨hw, hht, hcs, hcap, -⟩ := sameSurroundings_startState { s with host := rest }
        exact .inl ⟨hw, hht, hcs, hcap⟩
    · exact .inr ⟨r, v, rest, hh, rfl⟩
    · exact .inl ⟨rfl, rfl, rfl, rfl⟩
    · exact .inl ⟨rfl, rfl, rfl, rfl⟩

/-- Settles O35: while BUSY no write has an effect; at rest each register stores its own value; and in `step_config`
only the host's write to a register moves that register. -/
theorem configurationChangesOnlyAtRest : Obligations.ConfigurationChangesOnlyAtRest := by
  unfold Obligations.ConfigurationChangesOnlyAtRest
  refine ⟨fun s r v hb => writeCsr_of_busy hb r v, fun s w c n v hb => ?_, fun s t hstep hreset => ?_⟩
  · have hstore : ∀ r v, r ≠ .ctrl → writeCsr r v s = .next (setConfig r v s) :=
      fun r v hr => writeCsr_of_store (fun h => hr h.1) s
    refine ⟨?_, ?_, ?_, ?_, ?_, ?_, ?_, fun hv => writeCsr_ctrl_of_zero hv s⟩
    all_goals rw [hstore _ _ (by decide)]; simp [setConfig, hb]
  · rcases step_config hstep hreset with ⟨hw, hht, hcs, hcap⟩ | ⟨r, v, rest, hh, rfl⟩
    · exact ⟨fun _ => hw, fun _ => hht, fun _ => hcs, fun _ => hcap⟩
    · have hother : ∀ r', (busy s = true ∨ ∀ v rest, s.host ≠ .write r' v :: rest) → busy s = true ∨ r ≠ r' :=
        fun r' h => h.imp_right fun hne hr => hne v rest (hr ▸ hh)
      obtain ⟨hw, hht, hcs, hcap⟩ := setConfig_other r v { s with host := rest }
      exact ⟨fun h => hw (hother _ h), fun h => hht (hother _ h), fun h => hcs (hother _ h), fun h => hcap (hother _ h)⟩

/-- Settles O31: at rest the block does not move, and no action of the host but reset and START writes PHASE. -/
theorem onlyStartOrResetLeavesRest : Obligations.OnlyStartOrResetLeavesRest := by
  unfold Obligations.OnlyStartOrResetLeavesRest
  intro s t hb hstep hne
  rcases step_next hstep with ⟨-, hmove⟩ | ⟨e, rest, hh, hact⟩
  · exact absurd (congrArg State.phase (hmove.eq_of_rest hb)) hne
  · rcases hact with ⟨-, hmove⟩ | ⟨rfl, -⟩ | ⟨v, rfl, hv, -⟩ | ⟨r, v, -, rfl⟩ | ⟨a, v, -, -, rfl⟩ | ⟨a, v, -, -, rfl⟩
    · exact absurd (congrArg State.phase (hmove.eq_of_rest hb)) hne
    · exact ⟨rest, .inl hh⟩
    · exact ⟨rest, .inr ⟨v, hv, hh⟩⟩
    · exact absurd (setConfig_frame r v { s with host := rest }).1 hne
    · exact absurd rfl hne
    · exact absurd rfl hne

/-! ### Where a step stops -/

theorem step_of_host_cons {s : State} {e : HostEvent} {rest : List HostEvent} (h : s.host = e :: rest) :
    step s = hostAct e { s with host := rest } := by
  simp only [step, h]

/-- What an action of the host can answer: it stops only at a missing pixel in the block's turn and at an access to
IN or OUT. -/
theorem hostAct_cases (e : HostEvent) (s : State) :
    (∃ t, hostAct e s = .next t)
    ∨ (hostAct e s = .refused .inputMissing ∧ s.phase = .scan ∧ s.inp.pixel s.pos.toNat = none)
    ∨ (∃ f, hostAct e s = .fault f ∧ ∃ a v, e = .placeIn a v ∨ e = .placeOut a v) := by
  cases e with
  | write r v => exact .inl (exists_writeCsr r v s)
  | reset => exact .inl ⟨_, rfl⟩
  | yield =>
    rcases blockStep_cases s with ht | ⟨hr, hp, -, hnone⟩
    · exact .inl ht
    · exact .inr (.inl ⟨hr, hp, hnone⟩)
  | placeIn a v =>
    simp only [hostAct, placeByte]
    split_ifs
    · exact .inr (.inr ⟨_, rfl, a, v, .inl rfl⟩)
    · exact .inr (.inr ⟨_, rfl, a, v, .inl rfl⟩)
    · exact .inl ⟨_, rfl⟩
  | placeOut a v =>
    simp only [hostAct, placeByte]
    split_ifs
    · exact .inr (.inr ⟨_, rfl, a, v, .inr rfl⟩)
    · exact .inr (.inr ⟨_, rfl, a, v, .inr rfl⟩)
    · exact .inl ⟨_, rfl⟩

/-- What a step can answer. -/
theorem step_cases (s : State) :
    (∃ t, step s = .next t)
    ∨ (step s = .refused .inputMissing ∧ s.phase = .scan ∧ s.inp.pixel s.pos.toNat = none)
    ∨ (∃ f, step s = .fault f ∧ ∃ a v rest, s.host = .placeIn a v :: rest ∨ s.host = .placeOut a v :: rest) := by
  cases hh : s.host with
  | nil =>
    rw [step_of_host_nil hh]
    rcases blockStep_cases s with ht | ⟨hr, hp, -, hnone⟩
    · exact .inl ht
    · exact .inr (.inl ⟨hr, hp, hnone⟩)
  | cons e rest =>
    rw [step_of_host_cons hh]
    rcases hostAct_cases e { s with host := rest } with ht | hr | ⟨f, hf, a, v, he⟩
    · exact .inl ht
    · exact .inr (.inl hr)
    · exact .inr (.inr ⟨f, hf, a, v, rest, by simpa using he⟩)

/-- Settles O33: the stops of `step_cases`, and none of them when the block has its turn and the image is there. -/
theorem stepStopsOnlyOnABrokenContract : Obligations.StepStopsOnlyOnABrokenContract := by
  unfold Obligations.StepStopsOnlyOnABrokenContract
  intro s
  refine ⟨fun hh hprov => ?_, fun r hr => ?_, fun f hf => ?_⟩
  · rw [step_of_host_nil hh]
    exact exists_blockStep_of_provided hprov
  · rcases step_cases s with ⟨t, ht⟩ | ⟨hr', hp, hnone⟩ | ⟨f, hf, -⟩
    · simp [hr] at ht
    · obtain rfl : r = .inputMissing := by simpa [hr] using hr'
      exact ⟨rfl, hp, hnone⟩
    · simp [hr] at hf
  · rcases step_cases s with ⟨t, ht⟩ | ⟨hr, -⟩ | ⟨-, -, haccess⟩
    · simp [hf] at ht
    · simp [hf] at hr
    · exact haccess

/-! ### Accesses to memory -/

theorem hostOut_of_busy {s : State} (hb : busy s = true) (a : Nat) : hostOut s a = none := by
  refine if_neg fun h => ?_
  simp [busy, h.1] at hb

theorem placeByte_of_busy {s : State} (hb : busy s = true) (limit a : Nat) (t : State) :
    placeByte limit a t s = .fault .hostRace :=
  if_pos hb

theorem placeByte_of_rest {s : State} (hb : busy s = false) {limit a : Nat} (ha : a < limit) (t : State) :
    placeByte limit a t s = .next t := by
  simp [placeByte, hb, ha]

/-- Settles O38: while BUSY an access is a race; at rest it is one store. -/
theorem hostMemoryAccessOwnership : Obligations.HostMemoryAccessOwnership := by
  unfold Obligations.HostMemoryAccessOwnership
  intro s a v rest
  refine ⟨fun hb hh => ?_, hostOut_of_busy, fun hb ha hh => ?_, fun hb ha hh => ?_⟩
  · rcases hh with hh | hh
    · exact (step_of_host_cons hh).trans (placeByte_of_busy hb _ _ _)
    · exact (step_of_host_cons hh).trans (placeByte_of_busy hb _ _ _)
  · exact ⟨_, (step_of_host_cons hh).trans (placeByte_of_rest hb ha _), Memory.read_write_same _ _ _,
      fun x hx => Memory.read_write_other _ _ hx⟩
  · exact ⟨_, (step_of_host_cons hh).trans (placeByte_of_rest hb ha _), Memory.read_write_same _ _ _,
      fun x hx => Memory.read_write_other _ _ hx⟩

/-! ### Register reads and reset -/

/-- The fields of a byte of 2, 2, 1 and 3 bits, read back from a 64-bit register. -/
theorem statusFields : ∀ (e : BitVec 2) (b : Bool) (c : BitVec 3),
    ((0#2 ++ e ++ BitVec.ofBool b ++ c : BitVec (2 + 2 + 1 + 3)).setWidth 64).extractLsb' 0 3 = c
    ∧ ((0#2 ++ e ++ BitVec.ofBool b ++ c : BitVec (2 + 2 + 1 + 3)).setWidth 64).extractLsb' 3 1 = BitVec.ofBool b
    ∧ ((0#2 ++ e ++ BitVec.ofBool b ++ c : BitVec (2 + 2 + 1 + 3)).setWidth 64).extractLsb' 4 2 = e
    ∧ ((0#2 ++ e ++ BitVec.ofBool b ++ c : BitVec (2 + 2 + 1 + 3)).setWidth 64).extractLsb' 6 58 = 0 := by
  decide

/-- Settles O34: START by the phase, and the fields of STATUS by `statusFields`. -/
theorem ctrlAndStatusFields : Obligations.CtrlAndStatusFields := by
  unfold Obligations.CtrlAndStatusFields
  intro s v
  obtain ⟨hphase, hbusy, herr, hzero⟩ := statusFields s.err.code (busy s) s.phase.code
  refine ⟨rfl, fun hv hb => ?_, fun _ hb => writeCsr_of_busy hb _ _, fun hv => writeCsr_ctrl_of_zero hv s, hphase, ?_,
    herr, hzero⟩
  · exact (writeCsr_ctrl_of_start hv s).trans (exec_start_of_rest hb)
  · rw [← busy_iff, show (readCsr .status s).extractLsb' 3 1 = BitVec.ofBool (busy s) from hbusy]
    cases busy s <;> decide

/-- Settles O36: OUTLEN and CHANNELS look at the phase; the plain registers are zero-extended. -/
theorem resultRegistersReadInDone : Obligations.ResultRegistersReadInDone := by
  unfold Obligations.ResultRegistersReadInDone
  intro s
  refine ⟨fun hp => ⟨?_, ?_⟩, fun hp => ⟨?_, ?_⟩, ?_, ?_, ?_, rfl⟩
  · simp [readCsr, outlen, hp]
  · simp only [readCsr, channels, channelByte, hp, if_true]
    split_ifs <;> rfl
  · simp [readCsr, outlen, hp]
  · simp [readCsr, channels, hp]
  · exact BitVec.toNat_setWidth_of_le (by decide)
  · exact BitVec.toNat_setWidth_of_le (by decide)
  · exact BitVec.toNat_setWidth_of_le (by decide)

/-- Settles O39: the fields of `State.reset` as they are written there. -/
theorem resetStateHasTheStatedValues : Obligations.ResetStateHasTheStatedValues := by
  unfold Obligations.ResetStateHasTheStatedValues
  exact ⟨rfl, rfl, rfl, rfl, rfl, rfl, rfl, rfl, rfl, rfl⟩

theorem readCsr_status_hardReset (s : State) : readCsr .status (hardReset s) = 0 := by
  simp only [readCsr, statusByte, hardReset_err, busy_hardReset, hardReset_phase]
  rfl

/-- Settles O37: a reset answers `hardReset`, in whatever phase. -/
theorem resetAbandonsTheEncode : Obligations.ResetAbandonsTheEncode := by
  unfold Obligations.ResetAbandonsTheEncode
  intro s rest hh
  exact ⟨_, step_of_host_cons hh, rfl, rfl, rfl, rfl, rfl, rfl, rfl, readCsr_status_hardReset _,
    rfl, rfl, rfl, rfl⟩

end Sys2Proof.Machine
end

section
/-! What the block's step does to ASEEN, POS and WPTR, and the encodings that no run emits (40_sequencer.md sections 4
and 5). -/

namespace Sys2Proof.Machine

/-! ### ASEEN -/

theorem startState_aseen (s : State) : (startState s).aseen = false := by
  rw [startState_eq]
  rfl

/-- Every scan move notes the alpha of its pixel (40_sequencer.md R74). -/
theorem ScanMove.aseen_eq {s t : State} {px : Pixel} (h : ScanMove s px t) :
    t.aseen = (s.aseen || (!sentinel s && decide (px.a.toNat < 255))) := by
  cases h <;> rfl

theorem ScanMove.phase_ne_error {s t : State} {px : Pixel} (h : ScanMove s px t) (hp : s.phase = .scan) :
    t.phase ≠ .error := by
  rcases h.phase_cases hp with ht | ht <;> simp [ht]

theorem sentinel_eq_false_iff {s : State} (h : s.pos.toNat ≤ npix s) : sentinel s = false ↔ s.pos.toNat < npix s :=
  ⟨fun hs => pos_lt_of_real hs h, sentinel_of_lt⟩

/-- Settles O42: a scan move notes the alpha of a real pixel; every other move of a BUSY block leaves ASEEN. -/
theorem alphaSeenFollowsRealPixels : Obligations.AlphaSeenFollowsRealPixels := by
  unfold Obligations.AlphaSeenFollowsRealPixels
  constructor
  · intro s t h hb
    rw [exec_start_of_rest hb] at h
    cases h
    exact startState_aseen s
  · intro s t hh hb hpos hstep
    have hmove : BlockMove s t := blockStep_next (step_of_host_nil hh ▸ hstep)
    cases hmove with
    | rest hb' => simp [hb] at hb'
    | scan px _ hp hc hm =>
      have hreal := sentinel_eq_false_iff hpos
      simp [hm.aseen_eq, hp, hc, hm.phase_ne_error hp, hreal]
    | scanFault => simp
    | endFault => simp
    | header hp => simp [hp]
    | endmark hp => simp [hp]

/-! ### POS and PHASE -/

/-- The operation of a scan move is the one that the decision tree selects. -/
theorem ScanMove.select_cases {s t : State} {px : Pixel} (h : ScanMove s px t) :
    (select px s = .runacc ∧ t = extendRun (noteAlpha px s))
    ∨ (∃ count ≤ s.run.toNat, select px s = .runemit count
        ∧ t = takeFromRun count (appendBytes (encode (.runemit count)) (noteAlpha px s)))
    ∨ (isPixelChunk (select px s) = true
        ∧ t = nextPos (commit px (appendBytes (encode (select px s)) (noteAlpha px s)))) := by
  cases h with
  | acc hs heq => exact .inl ⟨(Selected.runacc hs heq).select_eq, rfl⟩
  | flush count hb hr hc hf =>
    exact .inr (.inl ⟨count, hc ▸ Nat.min_le_left _ _, select_runemit hb hr hc, rfl⟩)
  | chunk i hb hr hi hf =>
    obtain rfl : select px s = i := (select_of_chunkTests hb hr).trans hi
    exact .inr (.inr ⟨hi ▸ chunkFor_isPixelChunk _ _ _, rfl⟩)

/-- A fault-free step in SCAN is a move of the scan with the current operation. -/
theorem BlockMove.scanMove {s t : State} {i : Instr} (h : BlockMove s t) (hp : s.phase = .scan)
    (hc : current s = some i) (ht : t.phase ≠ .error) : ∃ px, select px s = i ∧ ScanMove s px t := by
  cases h with
  | rest hb => simp [busy, hp] at hb
  | scan px _ _ hcur hm =>
    have hsel : select px s = i := by simpa [current_of_scan hp hcur] using hc
    exact ⟨px, hsel, hm⟩
  | scanFault => simp at ht
  | header hp' => simp [hp] at hp'
  | endmark hp' => simp [hp] at hp'
  | endFault => simp at ht

/-- Settles O43: the three kinds of scan move, each with its own way to advance. -/
theorem programCounterMoves : Obligations.ProgramCounterMoves := by
  unfold Obligations.ProgramCounterMoves
  intro s t i hh hp hc hstep ht
  have hmove : BlockMove s t := blockStep_next (step_of_host_nil hh ▸ hstep)
  obtain ⟨px, rfl, hm⟩ := hmove.scanMove hp hc ht
  rcases hm.select_cases with ⟨hsel, rfl⟩ | ⟨count, hle, hsel, rfl⟩ | ⟨hchunk, rfl⟩
  · rw [hsel]
    exact ⟨fun _ => ⟨hp, rfl⟩, by simp, by simp [isPixelChunk]⟩
  · rw [hsel]
    refine ⟨by simp, fun count' h => ⟨rfl, ?_⟩, by simp [isPixelChunk]⟩
    cases h
    simp only [sentinel_iff]
    exact takeFromRun_phase_of_scan (s := appendBytes (encode (.runemit count)) (noteAlpha px s)) hp hle
  · refine ⟨fun h => ?_, fun count h => ?_, fun _ => ⟨fun hs => ?_, fun hs => ?_⟩⟩
    · simp [h, isPixelChunk] at hchunk
    · simp [h, isPixelChunk] at hchunk
    · simp [hs]
    · simp [hs, hp]

/-! ### OUT and WPTR -/

/-- A scan move appends the encoding of its operation, and finds room for it. -/
theorem ScanMove.emits {s t : State} {px : Pixel} (h : ScanMove s px t) (hw : s.wptr.toNat ≤ s.outcap.toNat) :
    t.out = s.out.writeBytes s.wptr.toNat (encode (select px s))
    ∧ t.wptr.toNat = s.wptr.toNat + (encode (select px s)).length
    ∧ s.wptr.toNat + (encode (select px s)).length ≤ s.outcap.toNat := by
  cases h with
  | acc hs heq =>
    rw [(Selected.runacc hs heq).select_eq]
    exact ⟨rfl, rfl, hw⟩
  | flush count hb hr hc hf =>
    rw [select_runemit hb hr hc]
    exact ⟨rfl, wptr_add_toNat (n := 1) hf, hf⟩
  | chunk i hb hr hi hf =>
    rw [select_of_chunkTests hb hr, hi]
    exact ⟨rfl, wptr_add_toNat hf, hf⟩

/-- Bytes that fit below a limit leave the bytes from the limit on. -/
theorem Memory.read_writeBytes_above (m : Memory) {a limit x : Nat} {bytes : List Byte}
    (hfit : a + bytes.length ≤ limit) (hx : limit ≤ x) : (m.writeBytes a bytes).read x = m.read x :=
  Memory.read_writeBytes_outside m a bytes (.inr (hfit.trans hx))

/-- Settles O44: the scan and ENDMARK append what fits below OUTCAP, HEADER writes below offset 14, and a fault writes
nothing. -/
theorem blockWritesOnlyWithinOut : Obligations.BlockWritesOnlyWithinOut := by
  unfold Obligations.BlockWritesOnlyWithinOut
  intro s t i hinv hh hc hstep
  have hmove : BlockMove s t := blockStep_next (step_of_host_nil hh ▸ hstep)
  obtain ⟨-, -, -, -, hin, -⟩ := hmove.sameSurroundings
  refine ⟨hin, ?_⟩
  cases hmove with
  | rest hb => simp [current_of_rest hb] at hc
  | scan px _ hp hcur hm =>
    obtain rfl : select px s = i := by simpa [current_of_scan hp hcur] using hc
    obtain ⟨hout, hw, hfit⟩ := hm.emits (hinv.scanInv (busy_of_scan hp)).wptr_le
    refine ⟨fun a ha => ?_, fun ht => absurd ht (hm.phase_ne_error hp), fun _ => by simp [hw, hp]⟩
    rw [hout]
    exact Memory.read_writeBytes_above _ hfit ha
  | header hp =>
    obtain rfl : headerOf s = i := by simpa [current_of_hdr hp] using hc
    have hs := hinv.scanInv (busy_of_hdr hp)
    have hfit : 0 + (encode (headerOf s)).length ≤ s.outcap.toNat := (Nat.le_trans hs.wptr_ge hs.wptr_le : 14 ≤ _)
    exact ⟨fun a ha => Memory.read_writeBytes_above _ hfit ha, fun ht => by simp at ht, fun _ => by simp [hp]⟩
  | endmark hp hf =>
    obtain rfl : Instr.endmark = i := by simpa [current_of_fin hp] using hc
    refine ⟨fun a ha => Memory.read_writeBytes_above _ hf ha, fun ht => by simp at ht, fun _ => ?_⟩
    rw [hp]
    exact wptr_add_toNat (n := 8) hf
  | scanFault => exact ⟨fun _ _ => rfl, fun _ => ⟨rfl, rfl⟩, fun ht => by simp at ht⟩
  | endFault => exact ⟨fun _ _ => rfl, fun _ => ⟨rfl, rfl⟩, fun ht => by simp at ht⟩

/-! ### Encodings that are never emitted -/

/-- Equal alphas and zero deltas are equal pixels. -/
theorem pixel_eq_of_deltas {px prev : Pixel} (hr : sdelta8 px.r prev.r = 0) (hg : sdelta8 px.g prev.g = 0)
    (hb : sdelta8 px.b prev.b = 0) (ha : px.a = prev.a) : px = prev := by
  rw [sdelta8_zero_iff] at hr hg hb
  cases px
  cases prev
  exact (Pixel.mk.injEq ..).mpr ⟨hr, hg, hb, ha⟩

theorem channelByte_cases (aseen : Bool) : channelByte aseen = 3 ∨ channelByte aseen = 4 := by
  cases aseen <;> decide

/-- Settles O45: a miss is no copy of PREV, which is cached; LUMA is tested after DIFF; the channel byte is
`3 + ASEEN`. -/
theorem someEncodingsAreNeverEmitted : Obligations.SomeEncodingsAreNeverEmitted := by
  unfold Obligations.SomeEncodingsAreNeverEmitted
  intro s i hinv hc
  cases hp : s.phase with
  | scan =>
    obtain ⟨px, hcur, rfl⟩ := current_scan hp hc
    have hcached := (hinv.scanInv (busy_of_scan hp)).prevCached
    obtain ⟨-, -, -, hdiff, hluma, -⟩ := selectIsTheDecisionTree px s
    refine ⟨fun h => ?_, fun dg drg dbg h => ?_, fun w h c cs hheader => ?_, fun px' _ hcur' hhit hchunk => ?_⟩
    · obtain ⟨-, -, hmiss, ha, hr, hg, hb, -⟩ := (hdiff 0 0 0).mp h
      exact hmiss (pixel_eq_of_deltas hr.symm hg.symm hb.symm ha ▸ hcached)
    · obtain ⟨-, -, -, -, rfl, rfl, rfl, hrange, -⟩ := (hluma dg drg dbg).mp h
      simpa using hrange
    · cases select_eq_iff.mp hheader
    · obtain rfl : px = px' := by simpa [hcur] using hcur'
      rcases select_cases px s with ⟨hsel, -⟩ | ⟨hsel, -⟩ | ⟨hsel, -⟩ <;> rw [hsel] at hchunk ⊢
      · cases hchunk
      · cases hchunk
      · exact chunkFor_of_hit hhit
  | hdr =>
    obtain rfl : headerOf s = i := by simpa [current_of_hdr hp] using hc
    refine ⟨by simp [headerOf], by simp [headerOf], fun w h c cs hops => ?_, by simp⟩
    cases hops
    exact channelByte_cases s.aseen
  | fin =>
    obtain rfl : Instr.endmark = i := by simpa [current_of_fin hp] using hc
    exact ⟨by simp, by simp, by simp, by simp⟩
  | idle | done | error => simp [current, hp] at hc

end Sys2Proof.Machine
end

section
/-! Placed operations (log entry 9): the state that `placeInstr` makes for each operation selects it, and has room for
it. -/

namespace Sys2Proof.Machine

/-! ### What a placed state shows -/

theorem length_encode_le (i : Instr) : (encode i).length ≤ 14 := by
  cases i <;> simp [encode, be32]

/-- A state performs an operation: it is the current one, and the step answers without a fault. -/
def Performs (u : State) (i : Instr) : Prop := current u = some i ∧ ∃ t, step u = .next t ∧ t.phase ≠ .error

/-- A current operation that does not overflow is performed without a fault. -/
theorem performs_of_room {s : State} {i : Instr} (hh : s.host = []) (hc : current s = some i)
    (hroom : ¬ (appendsToStream i ∧ overflows i s)) :
    Performs s i := by
  obtain ⟨t, hexec⟩ := exec_current hc
  have hstep : blockStep s = .next t := (blockStep_of_current hc).trans hexec
  refine ⟨hc, t, (step_of_host_nil hh).trans hstep, ?_⟩
  rcases (blockStep_next hstep).fault_or_room hc with ⟨happ, hover, -⟩ | ⟨-, ht⟩
  · exact absurd ⟨happ, hover⟩ hroom
  · exact ht

/-- With WPTR 14 and OUTCAP 64 every encoding fits. -/
theorem not_overflows {s : State} (hw : s.wptr = 14) (hcap : s.outcap = 64) (i : Instr) : ¬ overflows i s := by
  have hlen := length_encode_le i
  have hw' : s.wptr.toNat = 14 := by rw [hw]; rfl
  have hcap' : s.outcap.toNat = 64 := by rw [hcap]; rfl
  unfold overflows
  omega

/-- A placed scan operation is performed once the decision tree selects it. -/
theorem performs_of_select {s : State} {px : Pixel} {i : Instr} (hh : s.host = []) (hp : s.phase = .scan)
    (hw : s.wptr = 14) (hcap : s.outcap = 64) (hcur : cur s = some px) (hsel : select px s = i) :
    Performs s i :=
  performs_of_room hh (hsel ▸ current_of_scan hp hcur) fun h => not_overflows hw hcap i h.2

/-- The four bytes of a pixel, read back from where they were stored (20_memory.md R31). -/
theorem Memory.pixel_writeBytes (m : Memory) (i : Nat) (px : Pixel) :
    (m.writeBytes (4 * i) [px.r, px.g, px.b, px.a]).pixel i = some px := by
  have hread : ∀ j v, [px.r, px.g, px.b, px.a][j]? = some v →
      (m.writeBytes (4 * i) [px.r, px.g, px.b, px.a]).read (4 * i + j) = some v :=
    fun j v h => Memory.read_writeBytes_inside m _ _ h
  have hr := hread 0 px.r rfl
  have hg := hread 1 px.g rfl
  have hb := hread 2 px.b rfl
  have ha := hread 3 px.a rfl
  rw [Nat.add_zero] at hr
  simp only [Memory.pixel, hr, hg, hb, ha]

section
variable (prev px slotValue : Pixel) (s : State)

theorem cur_atPixel : cur (atPixel 1 0 prev px slotValue s) = some px :=
  Memory.pixel_writeBytes s.inp 0 px

theorem sentinel_atPixel : sentinel (atPixel 1 0 prev px slotValue s) = false := rfl

/-- The slot of the pixel under evaluation holds what was placed there. -/
theorem slot_atPixel (w p : Nat) : (atPixel w p prev px slotValue s).cache.get (hashOf px) = slotValue :=
  (get_set_slot _ _ _ _).trans (if_pos rfl)

theorem miss_atPixel (w p : Nat) (h : slotValue ≠ px) :
    (atPixel w p prev px slotValue s).cache.get (hashOf px) ≠ px :=
  (slot_atPixel prev px slotValue s w p).trans_ne h

/-- A placed real pixel performs what the decision tree selects for it. -/
theorem performs_atPixel {i : Instr} (hsel : select px (atPixel 1 0 prev px slotValue s) = i) :
    Performs (atPixel 1 0 prev px slotValue s) i :=
  performs_of_select rfl rfl rfl rfl (cur_atPixel prev px slotValue s) hsel

end

/-! ### The pixels that are placed -/

theorem hashOf_pixelOfSlot {slot : Nat} (h : slot < 64) : (hashOf (pixelOfSlot slot)).val = slot := by
  have hall : ∀ k : Fin 64, (hashOf (pixelOfSlot k.val)).val = k.val := by decide
  exact hall ⟨slot, h⟩

/-- A channel moved by a delta has that delta. -/
theorem sdelta8_moved {d : Int} (hlo : -128 ≤ d) (hhi : d ≤ 127) : sdelta8 (128 + BitVec.ofInt 8 d) 128 = d := by
  have hsub : 128 + BitVec.ofInt 8 d - 128 = BitVec.ofInt 8 d := by bv_omega
  rw [sdelta8, hsub, toInt_ofInt_byte]
  split_ifs <;> omega

theorem moved_deltas {dr dg db : Int} (hr : -128 ≤ dr ∧ dr ≤ 127) (hg : -128 ≤ dg ∧ dg ≤ 127)
    (hb : -128 ≤ db ∧ db ≤ 127) :
    sdelta8 (moved dr dg db).r middle.r = dr ∧ sdelta8 (moved dr dg db).g middle.g = dg
      ∧ sdelta8 (moved dr dg db).b middle.b = db :=
  ⟨sdelta8_moved hr.1 hr.2, sdelta8_moved hg.1 hg.2, sdelta8_moved hb.1 hb.2⟩

/-- Pixels with different deltas to a third are different. -/
theorem ne_of_delta {px prev : Pixel}
    (h : ¬ (sdelta8 px.r prev.r = 0 ∧ sdelta8 px.g prev.g = 0 ∧ sdelta8 px.b prev.b = 0)) :
    px ≠ prev := by
  rintro rfl
  simp [sdelta8_zero_iff] at h

theorem sdelta8_half (x : Byte) : sdelta8 x (x + 128) = -128 := by
  have hsub : x - (x + 128) = 128 := by bv_omega
  rw [sdelta8, hsub]
  rfl

theorem not_self (x : Byte) : ~~~x ≠ x := by
  revert x
  decide

/-! ### Each operation placed -/

theorem performs_runacc (s : State) :
    Performs (placeInstr .runacc s) .runacc :=
  performs_atPixel seed seed seed s (Selected.runacc rfl rfl).select_eq

theorem performs_runemit {count : Nat} (hlo : 1 ≤ count) (hhi : count ≤ 62) (s : State) :
    Performs (placeInstr (.runemit count) s) (.runemit count) := by
  have hcount : (BitVec.ofNat 64 count).toNat = count := Nat.mod_eq_of_lt (by omega)
  have hnpix : npix (placeInstr (.runemit count) s) = count := by
    change (count % 2 ^ 32) * 1 = count
    omega
  have hs : sentinel (placeInstr (.runemit count) s) = true := (sentinel_iff _).mpr (hcount.trans hnpix.symm)
  refine performs_of_select rfl rfl rfl rfl (cur_of_not_real ((sentinel_iff _).mp hs).ge) ?_
  refine select_runemit (.inl hs) ?_ ?_
  · exact hlo.trans hcount.ge
  · change count = min (BitVec.ofNat 64 count).toNat 62
    omega

theorem performs_index {slot : Nat} (h : slot < 64) (s : State) :
    Performs (placeInstr (.index slot) s) (.index slot) := by
  have hne : pixelOfSlot slot ≠ seed := fun heq => absurd (congrArg Pixel.a heq) (by simp [pixelOfSlot, seed])
  have hsel := Selected.index (.inr hne) rfl (slot_atPixel seed (pixelOfSlot slot) (pixelOfSlot slot) s 1 0)
  rw [hashOf_pixelOfSlot h] at hsel
  exact performs_atPixel _ _ _ s hsel.select_eq

/-- DIFF with zero deltas is placed at a sentinel whose slot 0 lost its zero pixel. -/
theorem performs_diff_zero (s : State) :
    Performs (placeInstr (.diff 0 0 0) s) (.diff 0 0 0) := by
  have hs : sentinel (placeInstr (.diff 0 0 0) s) = true := rfl
  have hmiss : (placeInstr (.diff 0 0 0) s).cache.get (hashOf Pixel.zero) ≠ Pixel.zero :=
    miss_atPixel Pixel.zero Pixel.zero seed s 0 0 (by decide)
  have hdelta : 0 = sdelta8 0 0 := ((sdelta8_zero_iff 0 0).mpr rfl).symm
  obtain ⟨-, -, -, hdiff, -⟩ := selectIsTheDecisionTree Pixel.zero (placeInstr (.diff 0 0 0) s)
  refine performs_of_select rfl rfl rfl rfl (cur_of_not_real ((sentinel_iff _).mp hs).ge) ?_
  exact (hdiff 0 0 0).mpr ⟨.inl hs, rfl, hmiss, rfl, hdelta, hdelta, hdelta, by decide, by decide, by decide⟩

/-- The placed pixel of a delta operation is not in the cache: its alpha is 255, and its slot holds the zero pixel. -/
theorem moved_miss (dr dg db : Int) (s : State) :
    (atPixel 1 0 middle (moved dr dg db) Pixel.zero s).cache.get (hashOf (moved dr dg db)) ≠ moved dr dg db :=
  miss_atPixel middle (moved dr dg db) Pixel.zero s 1 0
    fun heq => absurd (congrArg Pixel.a heq) (by simp [moved])

theorem performs_diff {dr dg db : Int} (h : inDiffRange dr dg db) (s : State) :
    Performs (placeInstr (.diff dr dg db) s) (.diff dr dg db) := by
  by_cases hzero : dr = 0 ∧ dg = 0 ∧ db = 0
  · obtain ⟨rfl, rfl, rfl⟩ := hzero
    exact performs_diff_zero s
  · have ⟨hr, hg, hb⟩ := h
    obtain ⟨er, eg, eb⟩ := moved_deltas (dr := dr) (dg := dg) (db := db) (by omega) (by omega) (by omega)
    have hne : moved dr dg db ≠ middle := ne_of_delta (by rwa [er, eg, eb])
    have hplace : placeInstr (.diff dr dg db) s = atPixel 1 0 middle (moved dr dg db) Pixel.zero s := if_neg hzero
    rw [hplace]
    obtain ⟨-, -, -, hdiff, -⟩ :=
      selectIsTheDecisionTree (moved dr dg db) (atPixel 1 0 middle (moved dr dg db) Pixel.zero s)
    refine performs_atPixel _ _ _ s ((hdiff dr dg db).mpr ?_)
    exact ⟨.inr hne, rfl, moved_miss dr dg db s, rfl, er.symm, eg.symm, eb.symm, h⟩

theorem performs_luma {dg drg dbg : Int} (h : inLumaRange (drg + dg) dg (dbg + dg))
    (hdiff : ¬ inDiffRange (drg + dg) dg (dbg + dg)) (s : State) :
    Performs (placeInstr (.luma dg drg dbg) s) (.luma dg drg dbg) := by
  have ⟨hg, hr, hb⟩ := h
  obtain ⟨er, eg, eb⟩ := moved_deltas (dr := drg + dg) (dg := dg) (db := dbg + dg) (by omega) (by omega) (by omega)
  have hne : moved (drg + dg) dg (dbg + dg) ≠ middle := by
    refine ne_of_delta ?_
    rw [er, eg, eb]
    exact fun hzero => hdiff ⟨by omega, by omega, by omega⟩
  obtain ⟨-, -, -, -, hluma, -⟩ :=
    selectIsTheDecisionTree (moved (drg + dg) dg (dbg + dg))
      (atPixel 1 0 middle (moved (drg + dg) dg (dbg + dg)) Pixel.zero s)
  refine performs_atPixel _ _ _ s ((hluma dg drg dbg).mpr ?_)
  have hprev : (atPixel 1 0 middle (moved (drg + dg) dg (dbg + dg)) Pixel.zero s).prev = middle := rfl
  rw [hprev, er, eg, eb]
  exact ⟨.inr hne, rfl, moved_miss _ _ _ s, rfl, rfl, by omega, by omega, hdiff, h⟩

/-- RGB is placed with a green delta of -128, which neither range holds. -/
theorem performs_rgb (r g b : Byte) (s : State) :
    Performs (placeInstr (.rgb r g b) s) (.rgb r g b) := by
  have hg : sdelta8 g (g + 128) = -128 := sdelta8_half g
  have hmiss := miss_atPixel ⟨r, g + 128, b, 255⟩ ⟨r, g, b, 255⟩ Pixel.zero s 1 0
    fun heq => absurd (congrArg Pixel.a heq) (by decide : (0 : Byte) ≠ 255)
  have hne : (⟨r, g, b, 255⟩ : Pixel) ≠ ⟨r, g + 128, b, 255⟩ :=
    ne_of_delta fun ⟨_, hzero, _⟩ => absurd (hg.symm.trans hzero) (by decide)
  refine performs_atPixel ⟨r, g + 128, b, 255⟩ ⟨r, g, b, 255⟩ Pixel.zero s
    (Selected.rgb (.inr hne) rfl hmiss rfl ?_ ?_).select_eq
  · rintro ⟨-, hrange, -⟩
    exact absurd (hg.symm.trans_ge hrange.1) (by decide)
  · rintro ⟨hrange, -, -⟩
    exact absurd (hg.symm.trans_ge hrange.1) (by decide)

theorem performs_rgba (r g b a : Byte) (s : State) :
    Performs (placeInstr (.rgba r g b a) s) (.rgba r g b a) := by
  have hmiss := miss_atPixel ⟨r, g, b, ~~~a⟩ ⟨r, g, b, a⟩ ⟨~~~r, g, b, a⟩ s 1 0
    fun heq => not_self r (congrArg Pixel.r heq)
  have halpha : a ≠ ~~~a := (not_self a).symm
  have hne : (⟨r, g, b, a⟩ : Pixel) ≠ ⟨r, g, b, ~~~a⟩ := fun heq => halpha (congrArg Pixel.a heq)
  exact performs_atPixel ⟨r, g, b, ~~~a⟩ ⟨r, g, b, a⟩ ⟨~~~r, g, b, a⟩ s
    (Selected.rgba (.inr hne) rfl hmiss halpha).select_eq

theorem performs_header (w h : Word32) {c : Byte} (cs : Byte) (hc : c = 3 ∨ c = 4) (s : State) :
    Performs (placeInstr (.header w h c cs) s) (.header w h c cs) := by
  have hchannel : channelByte (decide (c = 4)) = c := by rcases hc with rfl | rfl <;> decide
  have hcur : current (placeInstr (.header w h c cs) s) = some (.header w h c cs) := by
    rw [current_of_hdr rfl]
    simp only [headerOf, placeInstr, hchannel]
  exact performs_of_room rfl hcur (by simp [appendsToStream, isPixelChunk, isRunChunk])

theorem performs_endmark (s : State) :
    Performs (placeInstr .endmark s) .endmark :=
  performs_of_room rfl rfl fun h => not_overflows rfl rfl _ h.2

/-- Settles O46: one placed state for each operation. -/
theorem placedStatePerformsTheOperation : Obligations.PlacedStatePerformsTheOperation := by
  unfold Obligations.PlacedStatePerformsTheOperation
  intro i s hwf hstart hluma hheader
  cases i with
  | start => exact absurd rfl hstart
  | runacc => exact performs_runacc s
  | runemit count =>
    obtain ⟨hlo, hhi⟩ : 1 ≤ count ∧ count ≤ 62 := by simpa [Instr.wellFormed] using hwf
    exact performs_runemit hlo hhi s
  | index slot => exact performs_index (by simpa [Instr.wellFormed] using hwf) s
  | diff dr dg db => exact performs_diff (by simpa [Instr.wellFormed, inDiffRange] using hwf) s
  | luma dg drg dbg =>
    exact performs_luma (by simpa [Instr.wellFormed, inLumaRange] using hwf) (hluma dg drg dbg rfl) s
  | rgb r g b => exact performs_rgb r g b s
  | rgba r g b a => exact performs_rgba r g b a s
  | header w h c cs => exact performs_header w h cs (hheader w h c cs rfl) s
  | endmark => exact performs_endmark s

end Sys2Proof.Machine
end

section
/-! The loop of 40_sequencer.md R82 on its own: which chunks it emits, the pixels they count (R83), and the length of
the stream (20_memory.md section 3). -/

namespace Sys2Proof.Machine

/-! ### One pass -/

theorem Loop.pixel_of_eq {l : Loop} {px : Pixel} (h : px = l.prev) :
    l.pixel px = { l with aseen := l.aseen || decide (px.a.toNat < 255), run := l.run + 1 } :=
  if_pos h

theorem Loop.pixel_of_ne {l : Loop} {px : Pixel} (h : px ≠ l.prev) :
    l.pixel px =
      { prev := px
        cache := l.cache.set (hashOf px).val px (hashOf px).isLt
        run := 0
        aseen := l.aseen || decide (px.a.toNat < 255)
        chunks := l.chunks ++ flushRun l.run ++ [chunkFor l.cache l.prev px] } :=
  if_neg h

theorem Loop.sentinel_of_run {l : Loop} (h : 0 < l.run) :
    l.sentinel = { l with run := 0, chunks := l.chunks ++ flushRun l.run } :=
  if_pos h

theorem Loop.sentinel_of_no_run {l : Loop} (h : l.run = 0) :
    l.sentinel =
      { l with
        prev := Pixel.zero
        cache := l.cache.set (hashOf Pixel.zero).val Pixel.zero (hashOf Pixel.zero).isLt
        chunks := l.chunks ++ [chunkFor l.cache l.prev Pixel.zero] } :=
  if_neg (by omega)

/-- What the sentinel adds to the chunks: the flush of a pending run, or the artifact. -/
theorem Loop.chunks_sentinel (l : Loop) :
    l.sentinel.chunks = l.chunks ++ if l.run = 0 then [chunkFor l.cache l.prev Pixel.zero] else flushRun l.run := by
  by_cases h : l.run = 0
  · rw [Loop.sentinel_of_no_run h, if_pos h]
  · rw [Loop.sentinel_of_run (Nat.pos_of_ne_zero h), if_neg h]

/-- A pass only appends chunks. -/
theorem Loop.chunks_prefix_pixel (l : Loop) (px : Pixel) : l.chunks <+: (l.pixel px).chunks := by
  by_cases h : px = l.prev
  · rw [Loop.pixel_of_eq h]
  · rw [Loop.pixel_of_ne h, List.append_assoc]
    exact List.prefix_append _ _

theorem Loop.chunks_prefix_foldl (l : Loop) (pixels : List Pixel) :
    l.chunks <+: (pixels.foldl Loop.pixel l).chunks := by
  induction pixels generalizing l with
  | nil => exact List.prefix_rfl
  | cons px pixels ih => exact (l.chunks_prefix_pixel px).trans (ih _)

theorem Loop.chunks_prefix_sentinel (l : Loop) : l.chunks <+: l.sentinel.chunks := by
  rw [Loop.chunks_sentinel]
  exact List.prefix_append _ _

/-! ### A property of every chunk -/

section
variable {P : Instr → Prop} (hrun : ∀ count, 1 ≤ count → count ≤ 62 → P (.runemit count))
  (hchunk : ∀ cache prev px, P (chunkFor cache prev px))
include hrun

theorem forall_mem_flushRun (n : Nat) : ∀ i ∈ flushRun n, P i := by
  induction n using Nat.strong_induction_on with
  | _ n ih =>
    by_cases h : 0 < n
    · rw [flushRun_of_pos h]
      exact List.forall_mem_cons.mpr ⟨hrun _ (by omega) (by omega), ih _ (by omega)⟩
    · obtain rfl : n = 0 := by omega
      simp

include hchunk

theorem forall_mem_chunks_pixel {l : Loop} (hl : ∀ i ∈ l.chunks, P i) (px : Pixel) :
    ∀ i ∈ (l.pixel px).chunks, P i := by
  by_cases h : px = l.prev
  · rwa [Loop.pixel_of_eq h]
  · rw [Loop.pixel_of_ne h]
    simp only [List.forall_mem_append, List.forall_mem_singleton]
    exact ⟨⟨hl, forall_mem_flushRun hrun _⟩, hchunk _ _ _⟩

/-- What holds of every RUN chunk and of every chunk of tests 3 to 5 holds of the whole stream. -/
theorem forall_mem_chunks (pixels : List Pixel) : ∀ i ∈ (scanImage pixels).chunks, P i := by
  have hscan : ∀ i ∈ (scanPixels pixels).chunks, P i := by
    refine List.foldlRecOn (motive := fun l : Loop => ∀ i ∈ l.chunks, P i) pixels Loop.pixel ?_ ?_
    · simp [Loop.start]
    · exact fun l hl px _ => forall_mem_chunks_pixel hrun hchunk hl px
  rw [scanImage, Loop.chunks_sentinel]
  refine List.forall_mem_append.mpr ⟨hscan, ?_⟩
  split_ifs
  · exact List.forall_mem_singleton.mpr (hchunk _ _ _)
  · exact forall_mem_flushRun hrun _

end

/-! ### The pixels of the stream -/

/-- The pixels that some chunks stand for. -/
def pixelCount (chunks : List Instr) : Nat := (chunks.map pixelsOf).sum

@[simp] theorem pixelCount_append (xs ys : List Instr) : pixelCount (xs ++ ys) = pixelCount xs + pixelCount ys := by
  simp [pixelCount]

theorem pixelsOf_pixelChunk {i : Instr} (h : isPixelChunk i = true) : pixelsOf i = 1 := by
  cases i with
  | index | diff | luma | rgb | rgba => rfl
  | start | runacc | runemit | header | endmark => cases h

theorem pixelCount_chunkFor (cache : Vector Pixel 64) (prev px : Pixel) : pixelCount [chunkFor cache prev px] = 1 :=
  pixelsOf_pixelChunk (chunkFor_isPixelChunk cache prev px)

/-- A flush counts the pixels of its run. -/
theorem pixelCount_flushRun (n : Nat) : pixelCount (flushRun n) = n := by
  induction n using Nat.strong_induction_on with
  | _ n ih =>
    by_cases h : 0 < n
    · have hrest := ih (n - min n 62) (by omega)
      rw [flushRun_of_pos h]
      simp only [pixelCount, List.map_cons, List.sum_cons, pixelsOf] at hrest ⊢
      omega
    · obtain rfl : n = 0 := by omega
      rfl

/-- Every pass accounts for one pixel: in the chunks or in the pending run. -/
theorem pixelCount_pixel (l : Loop) (px : Pixel) :
    pixelCount (l.pixel px).chunks + (l.pixel px).run = pixelCount l.chunks + l.run + 1 := by
  by_cases h : px = l.prev
  · rw [Loop.pixel_of_eq h]
    rfl
  · rw [Loop.pixel_of_ne h]
    simp [pixelCount_flushRun, pixelCount_chunkFor, Nat.add_assoc]

theorem pixelCount_foldl (pixels : List Pixel) (l : Loop) :
    pixelCount (pixels.foldl Loop.pixel l).chunks + (pixels.foldl Loop.pixel l).run
      = pixelCount l.chunks + l.run + pixels.length := by
  induction pixels generalizing l with
  | nil => rfl
  | cons px pixels ih =>
    have hpass := pixelCount_pixel l px
    have hrest := ih (l.pixel px)
    simp only [List.foldl_cons, List.length_cons]
    omega

theorem pixelCount_scanPixels (pixels : List Pixel) :
    pixelCount (scanPixels pixels).chunks + (scanPixels pixels).run = pixels.length := by
  have h := pixelCount_foldl pixels Loop.start
  simpa [Loop.start, pixelCount, scanPixels] using h

/-- The whole stream counts the pixels of the image and the artifact (40_sequencer.md R83). -/
theorem pixelCount_scanImage (pixels : List Pixel) :
    pixelCount (scanImage pixels).chunks = pixels.length + artifactCount pixels := by
  have h := pixelCount_scanPixels pixels
  rw [scanImage, Loop.chunks_sentinel, pixelCount_append, artifactCount]
  split_ifs with hrun
  · rw [pixelCount_chunkFor]
    omega
  · rw [pixelCount_flushRun]
    omega

/-- Settles O53: the image's chunks end where the artifact begins; a pending run leaves no artifact. -/
theorem chunkStreamCountsThePixels : Obligations.ChunkStreamCountsThePixels := by
  unfold Obligations.ChunkStreamCountsThePixels
  intro pixels
  have hcount := pixelCount_scanPixels pixels
  have htotal := pixelCount_scanImage pixels
  have hchunks : (scanImage pixels).chunks = _ := Loop.chunks_sentinel _
  by_cases hrun : (scanPixels pixels).run = 0
  · rw [if_pos hrun] at hchunks
    refine ⟨_, _, hchunks, ?_, by simp [artifactCount, hrun], htotal⟩
    change pixelCount _ = _
    omega
  · rw [if_neg hrun] at hchunks
    refine ⟨(scanImage pixels).chunks, [], (List.append_nil _).symm, ?_, by simp [artifactCount, hrun], htotal⟩
    change pixelCount _ = _
    simpa [artifactCount, hrun] using htotal

/-- A RUN chunk stands for at least one pixel, so there are no more of them than pixels. -/
theorem countP_isRunChunk_le {chunks : List Instr} (h : ∀ i ∈ chunks, 1 ≤ pixelsOf i) :
    chunks.countP isRunChunk ≤ pixelCount chunks := by
  have hlen : chunks.length ≤ pixelCount chunks := by
    simpa [pixelCount] using List.card_nsmul_le_sum (chunks.map pixelsOf) 1 (by simpa using h)
  exact List.countP_le_length.trans hlen

theorem isRunChunk_chunkFor (cache : Vector Pixel 64) (prev px : Pixel) :
    isRunChunk (chunkFor cache prev px) = false := by
  have h := chunkFor_isPixelChunk cache prev px
  cases hi : chunkFor cache prev px with
  | runemit => simp [hi, isPixelChunk] at h
  | start | runacc | index | diff | luma | rgb | rgba | header | endmark => rfl

/-- `K + A` is at most the number of pixels and one more: the artifact is no RUN chunk (40_sequencer.md R84). -/
theorem runChunkCount_add_artifactCount_le (pixels : List Pixel) :
    runChunkCount pixels + artifactCount pixels ≤ pixels.length + 1 := by
  have hpos : ∀ i ∈ (scanImage pixels).chunks, 1 ≤ pixelsOf i :=
    forall_mem_chunks (fun _ h _ => h) (fun _ _ _ => (pixelsOf_pixelChunk (chunkFor_isPixelChunk _ _ _)).ge) pixels
  have htotal := pixelCount_scanImage pixels
  by_cases hrun : (scanPixels pixels).run = 0
  · have hcount := pixelCount_scanPixels pixels
    have hchunks := Loop.chunks_sentinel (scanPixels pixels)
    rw [if_pos hrun] at hchunks
    have hle := countP_isRunChunk_le fun i hi => hpos i ((scanPixels pixels).chunks_prefix_sentinel.subset hi)
    have hsame : runChunkCount pixels = (scanPixels pixels).chunks.countP isRunChunk := by
      rw [runChunkCount, scanImage, hchunks]
      simp [isRunChunk_chunkFor]
    simp only [artifactCount, if_pos hrun]
    omega
  · have hle := countP_isRunChunk_le hpos
    simp only [artifactCount, if_neg hrun] at htotal ⊢
    simp only [runChunkCount]
    omega

/-! ### The length of the stream -/

theorem length_encodeImage (w h : Word32) (cs : Byte) (pixels : List Pixel) :
    (encodeImage w h cs pixels).length = 22 + ((scanImage pixels).chunks.map fun i => (encode i).length).sum := by
  simp [encodeImage, List.length_flatMap, encode, be32]
  omega

/-- Every chunk has a byte, at most five for each of its pixels, and at most 62 pixels. -/
theorem chunk_bounds (pixels : List Pixel) : ∀ i ∈ (scanImage pixels).chunks,
    1 ≤ (encode i).length ∧ (encode i).length ≤ 5 * pixelsOf i ∧ pixelsOf i ≤ 62 * (encode i).length := by
  refine forall_mem_chunks (fun count hlo hhi => ?_) (fun cache prev px => ?_) pixels
  · simp only [encode, pixelsOf, List.length_singleton]
    omega
  · obtain ⟨hlo, hhi⟩ := encode_chunkFor_length cache prev px
    have hpx := pixelsOf_pixelChunk (chunkFor_isPixelChunk cache prev px)
    omega

theorem artifactCount_le (pixels : List Pixel) : artifactCount pixels ≤ 1 := by
  unfold artifactCount
  split_ifs <;> omega

theorem length_encodeImage_le (w h : Word32) (cs : Byte) (pixels : List Pixel) :
    (encodeImage w h cs pixels).length ≤ 5 * pixels.length + 27 := by
  have hsum : ((scanImage pixels).chunks.map fun i => (encode i).length).sum
      ≤ ((scanImage pixels).chunks.map fun i => 5 * pixelsOf i).sum :=
    List.sum_le_sum fun i hi => have ⟨_, hupper, _⟩ := chunk_bounds pixels i hi; hupper
  rw [List.sum_map_mul_left] at hsum
  have htotal : ((scanImage pixels).chunks.map pixelsOf).sum = _ := pixelCount_scanImage pixels
  have hart := artifactCount_le pixels
  rw [length_encodeImage]
  omega

theorem le_length_encodeImage (w h : Word32) (cs : Byte) (pixels : List Pixel) :
    22 + (pixels.length + 61) / 62 ≤ (encodeImage w h cs pixels).length := by
  have hsum : ((scanImage pixels).chunks.map pixelsOf).sum
      ≤ ((scanImage pixels).chunks.map fun i => 62 * (encode i).length).sum :=
    List.sum_le_sum fun i hi => have ⟨_, _, hlower⟩ := chunk_bounds pixels i hi; hlower
  rw [List.sum_map_mul_left] at hsum
  have htotal : ((scanImage pixels).chunks.map pixelsOf).sum = _ := pixelCount_scanImage pixels
  rw [length_encodeImage]
  omega

/-- An image of seed pixels is one run. -/
theorem scanPixels_replicate_seed (n : Nat) : scanPixels (List.replicate n seed) = { Loop.start with run := n } := by
  induction n with
  | zero => rfl
  | succ n ih =>
    rw [List.replicate_succ', scanPixels, List.foldl_append]
    change (scanPixels _).pixel seed = _
    rw [ih]
    exact Loop.pixel_of_eq rfl

theorem length_encodeImage_seed (w h : Word32) (cs : Byte) {n : Nat} (hn : 1 ≤ n) :
    (encodeImage w h cs (List.replicate n seed)).length = 22 + (n + 61) / 62 := by
  have hchunks : (scanImage (List.replicate n seed)).chunks = flushRun n := by
    rw [scanImage, scanPixels_replicate_seed, Loop.sentinel_of_run (l := { Loop.start with run := n }) hn]
    rfl
  rw [length_encodeImage, hchunks, ← List.length_flatMap, length_flatMap_encode_flushRun, length_flushRun]

/-- Settles O54: the bounds of every chunk summed up, and the one run of an image of seed pixels. -/
theorem streamLengthBounds : Obligations.StreamLengthBounds := by
  unfold Obligations.StreamLengthBounds
  intro w h cs pixels hlen
  exact ⟨length_encodeImage_le w h cs pixels, le_length_encodeImage w h cs pixels, length_encodeImage_seed w h cs hlen⟩

end Sys2Proof.Machine
end

section
/-! Termination (40_sequencer.md section 6): the steps that are left fall with every move of a BUSY block. -/

namespace Sys2Proof.Machine

/-- A bound on the steps until the block is at rest: two for every pixel that is left, one for every pixel of the
pending run, and the sentinel, HEADER and ENDMARK. -/
def stepsLeft (s : State) : Nat :=
  match s.phase with
  | .scan => 2 * (npix s - s.pos.toNat) + s.run.toNat + 3
  | .hdr => 2
  | .fin => 1
  | .idle => 0
  | .done => 0
  | .error => 0

theorem stepsLeft_of_scan {s : State} (hp : s.phase = .scan) :
    stepsLeft s = 2 * (npix s - s.pos.toNat) + s.run.toNat + 3 := by
  simp only [stepsLeft, hp]

theorem stepsLeft_of_hdr {s : State} (hp : s.phase = .hdr) : stepsLeft s = 2 := by
  simp only [stepsLeft, hp]

theorem stepsLeft_of_fin {s : State} (hp : s.phase = .fin) : stepsLeft s = 1 := by
  simp only [stepsLeft, hp]

/-- A move that ends the scan leaves HEADER and ENDMARK only. -/
theorem stepsLeft_lt_of_hdr {s t : State} (hp : s.phase = .scan) (ht : t.phase = .hdr) : stepsLeft t < stepsLeft s := by
  rw [stepsLeft_of_scan hp, stepsLeft_of_hdr ht]
  omega

theorem ScanMove.stepsLeft_lt {s t : State} {px : Pixel} (h : ScanMove s px t) (hp : s.phase = .scan)
    (hs : ScanInv s) : stepsLeft t < stepsLeft s := by
  rcases h.phase_cases hp with htp | htp
  · rw [stepsLeft_of_scan hp, stepsLeft_of_scan htp]
    cases h with
    | acc hreal heq =>
      have hlt := pos_lt_of_real hreal hs.pos_le
      have hpos := pos_add_one_toNat hlt
      have hrun : (s.run + 1).toNat = s.run.toNat + 1 := toNat_add_one (Nat.lt_of_le_of_lt hs.run_le hlt) (npix_lt s)
      change 2 * (npix s - (s.pos + 1).toNat) + (s.run + 1).toNat + 3 < _
      omega
    | flush count hb hr hc hf =>
      have hrun : (s.run - BitVec.ofNat 64 count).toNat = s.run.toNat - count :=
        run_sub_toNat (hc ▸ Nat.min_le_left _ _)
      change 2 * (npix s - s.pos.toNat) + (s.run - BitVec.ofNat 64 count).toNat + 3 < _
      omega
    | chunk i hb hr hi hf =>
      have hreal : sentinel s = false := by
        by_contra hsent
        simp [Bool.eq_true_of_not_eq_false hsent] at htp
      have hlt := pos_lt_of_real hreal hs.pos_le
      have hpos := pos_add_one_toNat hlt
      change 2 * (npix s - (if sentinel s then s.pos else s.pos + 1).toNat) + s.run.toNat + 3 < _
      rw [hreal, if_neg Bool.false_ne_true]
      omega
  · exact stepsLeft_lt_of_hdr hp htp

theorem BlockMove.stepsLeft_lt {s t : State} (h : BlockMove s t) (hinv : Inv s) (hb : busy s = true) :
    stepsLeft t < stepsLeft s := by
  cases h with
  | rest hb' => simp [hb] at hb'
  | scan px _ hp hc hm => exact hm.stepsLeft_lt hp (hinv.scanInv hb)
  | scanFault px hp =>
    rw [stepsLeft_of_scan hp]
    exact Nat.succ_pos _
  | header hp =>
    rw [stepsLeft_of_hdr hp]
    exact Nat.one_lt_two
  | endmark hp =>
    rw [stepsLeft_of_fin hp]
    exact Nat.one_pos
  | endFault hp =>
    rw [stepsLeft_of_fin hp]
    exact Nat.one_pos

theorem sameSurroundings.npix_eq {s t : State} (h : sameSurroundings s t) : npix t = npix s :=
  have ⟨hw, hh, _⟩ := h
  npix_congr hw hh

theorem sameSurroundings.outcap_eq {s t : State} (h : sameSurroundings s t) : t.outcap = s.outcap :=
  have ⟨_, _, _, hcap, _⟩ := h
  hcap

theorem sameSurroundings.host_eq {s t : State} (h : sameSurroundings s t) : t.host = s.host :=
  have ⟨_, _, _, _, _, hhost⟩ := h
  hhost

/-- The image stays provided, since the block writes neither IN nor the dimensions. -/
theorem provided_of_sameSurroundings {s t : State} (h : sameSurroundings s t) (hp : provided s) : provided t := by
  have ⟨_, _, _, _, hin, _⟩ := h
  unfold provided
  rw [h.npix_eq, hin]
  exact hp

theorem sameSurroundings.trans {s t u : State} (h : sameSurroundings s t) (h' : sameSurroundings t u) :
    sameSurroundings s u := by
  obtain ⟨hw, hh, hcs, hcap, hin, hhost⟩ := h
  obtain ⟨hw', hh', hcs', hcap', hin', hhost'⟩ := h'
  exact ⟨hw'.trans hw, hh'.trans hh, hcs'.trans hcs, hcap'.trans hcap, hin'.trans hin, hhost'.trans hhost⟩

/-- The block's turn answers a move when the image is provided. -/
theorem exists_move {s : State} (hh : s.host = []) (hp : provided s) : ∃ t, step s = .next t ∧ BlockMove s t := by
  obtain ⟨t, ht⟩ := exists_blockStep_of_provided hp
  exact ⟨t, (step_of_host_nil hh).trans ht, blockStep_next ht⟩

/-- The block is at rest within the steps that are left. -/
theorem exists_run_to_rest {s : State} (hinv : Inv s) (hh : s.host = []) (hp : provided s) :
    ∃ k ≤ stepsLeft s, ∃ t : State, Host.Core.run core k s = .next t ∧ busy t = false := by
  generalize hn : stepsLeft s = n
  induction n using Nat.strong_induction_on generalizing s with
  | _ n ih =>
    subst hn
    cases hb : busy s with
    | false => exact ⟨0, Nat.zero_le _, s, rfl, hb⟩
    | true =>
      obtain ⟨t, hstep, hmove⟩ := exists_move hh hp
      have hsame := hmove.sameSurroundings
      have hlt := hmove.stepsLeft_lt hinv hb
      obtain ⟨k, hk, u, hrun, hu⟩ :=
        ih _ hlt (hmove.inv hinv) (hsame.host_eq.trans hh) (provided_of_sameSurroundings hsame hp) rfl
      exact ⟨k + 1, by omega, u, run_succ_eq_next_iff.mpr ⟨t, hstep, hrun⟩, hu⟩

/-- Under the invariant the pending run is made of consumed pixels, so the bound is one of NPIX alone. -/
theorem stepsLeft_le {s : State} (hinv : Inv s) (hb : busy s = true) : stepsLeft s ≤ 2 * npix s + 3 := by
  have hs := hinv.scanInv hb
  have hpos := hs.pos_le
  have hrun := hs.run_le
  rcases (busy_iff s).mp hb with hp | hp | hp
  · rw [stepsLeft_of_scan hp]
    omega
  · rw [stepsLeft_of_hdr hp]
    omega
  · rw [stepsLeft_of_fin hp]
    omega

/-- Settles O50: `stepsLeft` bounds the steps, and the invariant bounds `stepsLeft`. -/
theorem everyEncodeEnds : Obligations.EveryEncodeEnds := by
  unfold Obligations.EveryEncodeEnds
  intro s hinv hb hh hp
  obtain ⟨k, hk, t, hrun, ht⟩ := exists_run_to_rest hinv hh hp
  exact ⟨k, hk.trans (stepsLeft_le hinv hb), t, hrun, ht⟩

end Sys2Proof.Machine
end

section
/-! The step machine against the loop (40_sequencer.md R82, R84): each step is one part of a pass of the loop, and an
encode leaves the loop's stream. -/

namespace Sys2Proof.Machine

/-! ### The loop, one step at a time -/

/-- The note of an alpha, as the prologue of a scan step makes it (10_state.md R16). -/
def Loop.note (real : Bool) (px : Pixel) (l : Loop) : Loop :=
  { l with aseen := l.aseen || (real && decide (px.a.toNat < 255)) }

/-- RUNACC on the variables of the loop. -/
def Loop.acc (l : Loop) : Loop := { l with run := l.run + 1 }

/-- RUNEMIT on the variables of the loop. -/
def Loop.flush (count : Nat) (l : Loop) : Loop :=
  { l with run := l.run - count, chunks := l.chunks ++ [.runemit count] }

/-- A chunk operation on the variables of the loop. -/
def Loop.chunk (px : Pixel) (l : Loop) : Loop :=
  { l with
    prev := px
    cache := l.cache.set (hashOf px).val px (hashOf px).isLt
    chunks := l.chunks ++ [chunkFor l.cache l.prev px] }

/-- From the variables `l` and the pixels `rest` the loop ends as it does on the whole image, and with an artifact
exactly when the image has one. -/
structure Continues (pixels rest : List Pixel) (l : Loop) : Prop where
  finish : (rest.foldl Loop.pixel l).sentinel = scanImage pixels
  artifact : (rest.foldl Loop.pixel l).run = 0 ↔ (scanPixels pixels).run = 0

section
variable {pixels rest : List Pixel} {l : Loop} {px : Pixel}

/-- The chunks so far are the first chunks of the stream. -/
theorem Continues.prefix_chunks (h : Continues pixels rest l) : l.chunks <+: (scanImage pixels).chunks := by
  rw [← h.finish]
  exact (l.chunks_prefix_foldl rest).trans (Loop.chunks_prefix_sentinel _)

/-- Variables whose pass on the next pixel is the same continue the loop alike. -/
theorem Continues.of_pixel_eq {l' : Loop} (h : Continues pixels (px :: rest) l) (heq : l'.pixel px = l.pixel px) :
    Continues pixels (px :: rest) l' := by
  constructor
  · rw [List.foldl_cons, heq]
    exact h.finish
  · rw [List.foldl_cons, heq]
    exact h.artifact

/-- Variables that are the pass on the next pixel continue the loop after it. -/
theorem Continues.of_eq_pixel {l' : Loop} (h : Continues pixels (px :: rest) l) (heq : l' = l.pixel px) :
    Continues pixels rest l' :=
  heq ▸ ⟨h.finish, h.artifact⟩

theorem Continues.acc (h : Continues pixels (px :: rest) l) (heq : px = l.prev) :
    Continues pixels rest (l.note true px).acc :=
  h.of_eq_pixel (Loop.pixel_of_eq heq).symm

/-- One chunk of the flush of a broken run; the pass flushes what is left. -/
theorem Continues.flush (h : Continues pixels (px :: rest) l) (hne : px ≠ l.prev) (hrun : 0 < l.run) :
    Continues pixels (px :: rest) ((l.note true px).flush (min l.run 62)) := by
  refine h.of_pixel_eq ?_
  have hne' : px ≠ ((l.note true px).flush (min l.run 62)).prev := hne
  rw [Loop.pixel_of_ne hne, Loop.pixel_of_ne hne', flushRun_of_pos hrun]
  simp [Loop.flush, Loop.note]

theorem Continues.chunk (h : Continues pixels (px :: rest) l) (hne : px ≠ l.prev) (hrun : l.run = 0) :
    Continues pixels rest ((l.note true px).chunk px) := by
  refine h.of_eq_pixel ?_
  rw [Loop.pixel_of_ne hne]
  simp [Loop.chunk, Loop.note, hrun]

/-- One chunk of the flush at the sentinel that leaves some of the run. -/
theorem Continues.flush_sentinel (h : Continues pixels [] l) (hrun : 62 < l.run) :
    Continues pixels [] ((l.note false px).flush (min l.run 62)) := by
  have hleft : ((l.note false px).flush (min l.run 62)).run = l.run - min l.run 62 := rfl
  refine ⟨?_, ?_⟩
  · rw [← h.finish, List.foldl_nil, List.foldl_nil, Loop.sentinel_of_run (l := l) (by omega),
      Loop.sentinel_of_run (by omega), hleft, flushRun_of_pos (run := l.run) (by omega)]
    simp [Loop.flush, Loop.note]
  · rw [← h.artifact, List.foldl_nil, List.foldl_nil, hleft]
    omega

/-- The last chunk of the flush at the sentinel ends the loop, without an artifact (40_sequencer.md R79). -/
theorem Continues.flush_last (h : Continues pixels [] l) (hrun : 0 < l.run) (hshort : l.run ≤ 62) :
    (l.note false px).flush (min l.run 62) = scanImage pixels ∧ artifactCount pixels = 0 := by
  have hmin : min l.run 62 = l.run := Nat.min_eq_left hshort
  constructor
  · rw [← h.finish, List.foldl_nil, Loop.sentinel_of_run hrun, flushRun_of_pos hrun, hmin]
    simp [Loop.flush, Loop.note]
  · exact if_neg fun hz => hrun.ne' (h.artifact.mpr hz)

/-- The artifact ends the loop (40_sequencer.md R80). -/
theorem Continues.chunk_sentinel (h : Continues pixels [] l) (hrun : l.run = 0) :
    (l.note false Pixel.zero).chunk Pixel.zero = scanImage pixels ∧ artifactCount pixels = 1 := by
  constructor
  · rw [← h.finish, List.foldl_nil, Loop.sentinel_of_no_run hrun]
    simp [Loop.chunk, Loop.note]
  · exact if_pos (h.artifact.mp hrun)

end

/-! ### The registers against the variables -/

theorem holds_append_iff {m : Memory} {a : Nat} {xs ys : List Byte} :
    holds m a (xs ++ ys) ↔ holds m a xs ∧ holds m (a + xs.length) ys := by
  constructor
  · intro h
    refine ⟨fun j v hj => h j v ?_, fun j v hj => ?_⟩
    · rw [List.getElem?_append_left (List.getElem?_eq_some_iff.mp hj).1]
      exact hj
    · rw [Nat.add_assoc]
      exact h _ v (by rw [List.getElem?_append_right (Nat.le_add_right _ _), Nat.add_sub_cancel_left]; exact hj)
  · rintro ⟨hx, hy⟩ j v hj
    by_cases hlt : j < xs.length
    · exact hx j v (by rwa [List.getElem?_append_left hlt] at hj)
    · rw [List.getElem?_append_right (Nat.not_lt.mp hlt)] at hj
      have hread := hy _ v hj
      rwa [Nat.add_assoc, Nat.add_sub_cancel' (Nat.not_lt.mp hlt)] at hread

/-- A store elsewhere keeps what is held. -/
theorem holds_writeBytes_of_disjoint {m : Memory} {a b : Nat} {xs ys : List Byte} (h : holds m a xs)
    (hd : a + xs.length ≤ b ∨ b + ys.length ≤ a) : holds (m.writeBytes b ys) a xs := by
  intro j v hj
  have hlt := (List.getElem?_eq_some_iff.mp hj).1
  rw [Memory.read_writeBytes_outside _ _ _ (by omega)]
  exact h j v hj

/-- Bytes stored right behind held ones are held with them. -/
theorem holds_writeBytes_append {m : Memory} {a b : Nat} {xs ys : List Byte} (h : holds m a xs)
    (hb : b = a + xs.length) : holds (m.writeBytes b ys) a (xs ++ ys) := by
  subst hb
  exact holds_append_iff.mpr ⟨holds_writeBytes_of_disjoint h (.inl (Nat.le_refl _)), holds_writeBytes _ _ _⟩

/-- The bytes of some chunks. -/
def body (l : Loop) : List Byte := l.chunks.flatMap encode

/-- The registers hold the variables of the loop, and OUT its chunks from offset 14 on. -/
structure Tracks (l : Loop) (u : State) : Prop where
  prev : u.prev = l.prev
  cache : u.cache = l.cache
  run : u.run.toNat = l.run
  aseen : u.aseen = l.aseen
  err : u.err = .none
  wptr : u.wptr.toNat = 14 + (body l).length
  fits : u.wptr.toNat ≤ u.outcap.toNat
  written : holds u.out 14 (body l)

/-- What RUNEMIT leaves when it finds room (41_run.md R91). -/
def afterFlush (count : Nat) (px : Pixel) (u : State) : State :=
  takeFromRun count (appendBytes (encode (.runemit count)) (noteAlpha px u))

/-- The scan is over when the chunk covers the run at the sentinel. -/
theorem afterFlush_phase {u : State} {count : Nat} (px : Pixel) (hp : u.phase = .scan) (hle : count ≤ u.run.toNat) :
    (afterFlush count px u).phase = if u.run.toNat = count ∧ u.pos.toNat = npix u then .hdr else .scan :=
  takeFromRun_phase_of_scan (s := appendBytes (encode (.runemit count)) (noteAlpha px u)) hp hle

/-- What a chunk operation leaves when it finds room (40_sequencer.md R77, R78). -/
def afterChunk (px : Pixel) (u : State) : State :=
  nextPos (commit px (appendBytes (encode (chunkFor u.cache u.prev px)) (noteAlpha px u)))

theorem afterChunk_of_real {u : State} (px : Pixel) (hs : sentinel u = false) :
    (afterChunk px u).phase = u.phase ∧ (afterChunk px u).pos = u.pos + 1 := by
  simp [afterChunk, hs]

theorem afterChunk_of_sentinel {u : State} (px : Pixel) (hs : sentinel u = true) : (afterChunk px u).phase = .hdr := by
  simp [afterChunk, hs]

section
variable {l : Loop} {u : State}

theorem Tracks.acc (h : Tracks l u) (px : Pixel) (hrun : (u.run + 1).toNat = u.run.toNat + 1) :
    Tracks (l.note (!sentinel u) px).acc (extendRun (noteAlpha px u)) where
  prev := h.prev
  cache := h.cache
  run := hrun.trans (congrArg (· + 1) h.run)
  aseen := congrArg (· || _) h.aseen
  err := h.err
  wptr := h.wptr
  fits := h.fits
  written := h.written

/-- An append of one chunk's bytes, in WPTR and in OUT. -/
theorem Tracks.append (h : Tracks l u) {i : Instr} (hf : u.wptr.toNat + (encode i).length ≤ u.outcap.toNat) :
    (u.wptr + BitVec.ofNat 64 (encode i).length).toNat = 14 + ((l.chunks ++ [i]).flatMap encode).length
    ∧ (u.wptr + BitVec.ofNat 64 (encode i).length).toNat ≤ u.outcap.toNat
    ∧ holds (u.out.writeBytes u.wptr.toNat (encode i)) 14 ((l.chunks ++ [i]).flatMap encode) := by
  have hw := wptr_add_toNat hf
  have hbody : (l.chunks ++ [i]).flatMap encode = body l ++ encode i := by simp [body]
  rw [hbody, List.length_append, hw]
  refine ⟨?_, hf, holds_writeBytes_append h.written h.wptr⟩
  rw [h.wptr, Nat.add_assoc]

theorem Tracks.flush (h : Tracks l u) (px : Pixel) {count : Nat} (hle : count ≤ u.run.toNat)
    (hf : u.wptr.toNat + 1 ≤ u.outcap.toNat) :
    Tracks ((l.note (!sentinel u) px).flush count) (afterFlush count px u) := by
  obtain ⟨hw, hfit, hout⟩ := h.append (i := .runemit count) hf
  exact ⟨h.prev, h.cache, (run_sub_toNat hle).trans (congrArg (· - count) h.run), congrArg (· || _) h.aseen, h.err, hw,
    hfit, hout⟩

theorem Tracks.chunk (h : Tracks l u) (px : Pixel)
    (hf : u.wptr.toNat + (encode (chunkFor u.cache u.prev px)).length ≤ u.outcap.toNat) :
    Tracks ((l.note (!sentinel u) px).chunk px) (afterChunk px u) := by
  obtain ⟨hw, hfit, hout⟩ := h.append hf
  have hchunk : chunkFor u.cache u.prev px = chunkFor l.cache l.prev px := by rw [h.cache, h.prev]
  unfold afterChunk
  rw [hchunk] at hw hout ⊢
  refine ⟨rfl, ?_, h.run, congrArg (· || _) h.aseen, h.err, hw, hchunk ▸ hfit, hout⟩
  simp only [nextPos_cache, commit_cache, appendBytes_cache, noteAlpha_cache, h.cache]
  rfl

/-- PHASE is none of the variables. -/
theorem Tracks.withPhase (h : Tracks l u) (p : Phase) : Tracks l { u with phase := p } := { h with }

end

/-! ### The image -/

theorem length_imageOf (s : State) : (imageOf s).length = npix s := by simp [imageOf]

/-- At a real position the pixel under evaluation is the next of the image. -/
theorem drop_imageOf {s u : State} {px : Pixel} (h : sameSurroundings s u) (hc : cur u = some px)
    (hlt : u.pos.toNat < npix s) :
    (imageOf s).drop u.pos.toNat = px :: (imageOf s).drop (u.pos.toNat + 1) := by
  have ⟨_, _, _, _, hin, _⟩ := h
  have hlen : u.pos.toNat < (imageOf s).length := (length_imageOf s).symm ▸ hlt
  have hpx : s.inp.pixel u.pos.toNat = some px := by
    rw [← hin, ← cur_of_real (h.npix_eq ▸ hlt), hc]
  rw [List.drop_eq_getElem_cons hlen]
  simp [imageOf, hpx]

/-- The steps of the scan, from START to HDR (40_sequencer.md R84). -/
def scanSteps (s : State) : Nat := npix s + runChunkCount (imageOf s) + artifactCount (imageOf s)

/-- The bytes of HEADER and of the chunks. -/
def streamHead (s : State) : List Byte :=
  encode (.header s.width s.height (channelByte (scanImage (imageOf s)).aseen) s.cspace) ++ body (scanImage (imageOf s))

theorem reference_eq (s : State) : reference s = streamHead s ++ encode .endmark := rfl

theorem length_streamHead (s : State) : (streamHead s).length = 14 + (body (scanImage (imageOf s))).length := by
  rw [streamHead, List.length_append]
  rfl

theorem length_reference (s : State) : (reference s).length = 14 + (body (scanImage (imageOf s))).length + 8 := by
  rw [reference_eq, List.length_append, length_streamHead]
  rfl

/-! ### The course of an encode -/

/-- Where the encode of `s` stands after `k` steps from START: in the loop, with the loop done and HEADER or ENDMARK
left, in DONE with the whole stream, or in ERROR since the stream does not fit. -/
inductive Encoding (s : State) : Nat → State → Prop
  | scan {u : State} (l : Loop) (hp : u.phase = .scan) (hsame : sameSurroundings s u) (htrack : Tracks l u)
      (hpos : u.pos.toNat ≤ npix s) (hrun : u.run.toNat ≤ u.pos.toNat)
      (hcont : Continues (imageOf s) ((imageOf s).drop u.pos.toNat) l) :
      Encoding s (u.pos.toNat + l.chunks.countP isRunChunk) u
  | hdr {u : State} (hp : u.phase = .hdr) (hsame : sameSurroundings s u) (htrack : Tracks (scanImage (imageOf s)) u) :
      Encoding s (scanSteps s) u
  | fin {u : State} (hp : u.phase = .fin) (hsame : sameSurroundings s u) (htrack : Tracks (scanImage (imageOf s)) u)
      (hhead : holds u.out 0 (streamHead s)) : Encoding s (scanSteps s + 1) u
  | done {u : State} {k : Nat} (hp : u.phase = .done) (hsame : sameSurroundings s u) (hk : scanSteps s + 2 ≤ k)
      (herr : u.err = .none) (haseen : u.aseen = (scanImage (imageOf s)).aseen)
      (hw : u.wptr.toNat = (reference s).length) (hfit : (reference s).length ≤ s.outcap.toNat)
      (hout : holds u.out 0 (reference s)) : Encoding s k u
  | error {u : State} {k : Nat} (hp : u.phase = .error) (hsame : sameSurroundings s u)
      (hfull : s.outcap.toNat < (reference s).length) : Encoding s k u

theorem Encoding.surroundings {s u : State} {k : Nat} (h : Encoding s k u) : sameSurroundings s u := by
  cases h <;> assumption

theorem Encoding.cast {s u : State} {k k' : Nat} (h : Encoding s k u) (hk : k = k') : Encoding s k' u := hk ▸ h

/-! ### The moves of the scan -/

/-- The pixel under evaluation is the next of the image, or the zero pixel with none left. -/
theorem scan_cases {s u : State} {px : Pixel} (hsame : sameSurroundings s u) (hpos : u.pos.toNat ≤ npix s)
    (hc : cur u = some px) :
    (sentinel u = false ∧ u.pos.toNat < npix s
      ∧ (imageOf s).drop u.pos.toNat = px :: (imageOf s).drop (u.pos.toNat + 1))
    ∨ (sentinel u = true ∧ u.pos.toNat = npix s ∧ px = Pixel.zero ∧ (imageOf s).drop u.pos.toNat = []) := by
  have hnpix := hsame.npix_eq
  rcases Nat.lt_or_eq_of_le hpos with hlt | heq
  · exact .inl ⟨sentinel_of_lt (hnpix ▸ hlt), hlt, drop_imageOf hsame hc hlt⟩
  · have hzero : cur u = some Pixel.zero := cur_of_not_real (hnpix ▸ heq).ge
    exact .inr ⟨(sentinel_iff u).mpr (heq.trans hnpix.symm), heq, by simpa [hzero] using hc.symm,
      List.drop_eq_nil_of_le (by rw [length_imageOf, heq])⟩

section
variable {s u : State} {l : Loop} {px : Pixel}
  (hp : u.phase = .scan) (hsame : sameSurroundings s u) (htrack : Tracks l u) (hpos : u.pos.toNat ≤ npix s)
  (hrun : u.run.toNat ≤ u.pos.toNat) (hcont : Continues (imageOf s) ((imageOf s).drop u.pos.toNat) l)
  (hc : cur u = some px)
include hp hsame htrack hpos hrun hcont hc

theorem Encoding.acc (hreal : sentinel u = false) (heq : px = u.prev) :
    Encoding s (u.pos.toNat + l.chunks.countP isRunChunk + 1) (extendRun (noteAlpha px u)) := by
  obtain ⟨-, hlt, hdrop⟩ | ⟨hs, -⟩ := scan_cases hsame hpos hc
  · have hpos1 : (u.pos + 1).toNat = u.pos.toNat + 1 := toNat_add_one hlt (npix_lt s)
    have hrun1 : (u.run + 1).toNat = u.run.toNat + 1 := toNat_add_one (Nat.lt_of_le_of_lt hrun hlt) (npix_lt s)
    have htrack1 := htrack.acc px hrun1
    have hcont1 := (hdrop ▸ hcont).acc (heq.trans htrack.prev)
    rw [hreal] at htrack1
    rw [← hpos1] at hcont1
    refine (Encoding.scan (u := extendRun (noteAlpha px u)) _ hp hsame htrack1 ?_ ?_ hcont1).cast ?_
    · exact hpos1.trans_le hlt
    · change (u.run + 1).toNat ≤ (u.pos + 1).toNat
      omega
    · change (u.pos + 1).toNat + _ = _
      rw [hpos1, Nat.add_right_comm]
      rfl
  · simp [hreal] at hs

theorem Encoding.flush {count : Nat} (hb : sentinel u = true ∨ px ≠ u.prev) (hr : 0 < u.run.toNat)
    (hcount : count = min u.run.toNat 62) (hf : u.wptr.toNat + 1 ≤ u.outcap.toNat) :
    Encoding s (u.pos.toNat + l.chunks.countP isRunChunk + 1) (afterFlush count px u) := by
  have hle : count ≤ u.run.toNat := hcount ▸ Nat.min_le_left _ _
  have htrack1 := htrack.flush px hle hf
  have hphase := afterFlush_phase px hp hle
  rw [hsame.npix_eq] at hphase
  have hrun1 : (u.run - BitVec.ofNat 64 count).toNat ≤ u.pos.toNat := by
    rw [run_sub_toNat hle]
    omega
  have hcountP : ∀ real, ((l.note real px).flush count).chunks.countP isRunChunk = l.chunks.countP isRunChunk + 1 := by
    simp [Loop.flush, Loop.note, isRunChunk]
  have hrunl := htrack.run
  have hcount' : count = min l.run 62 := hrunl ▸ hcount
  obtain ⟨hs, hlt, hdrop⟩ | ⟨hs, heq, -, hdrop⟩ := scan_cases hsame hpos hc <;> rw [hs] at htrack1
  · have hne : px ≠ l.prev := htrack.prev ▸ hb.resolve_left (by simp [hs])
    have hcont1 := (hdrop ▸ hcont).flush hne (hrunl ▸ hr)
    rw [← hdrop, ← hcount'] at hcont1
    rw [if_neg fun h => hlt.ne h.2] at hphase
    refine (Encoding.scan _ hphase hsame htrack1 hpos hrun1 hcont1).cast ?_
    rw [hcountP]
    rfl
  · by_cases hlong : 62 < l.run
    · have hcont1 := (hdrop ▸ hcont).flush_sentinel (px := px) hlong
      rw [← hdrop, ← hcount'] at hcont1
      rw [if_neg fun h => by omega] at hphase
      refine (Encoding.scan _ hphase hsame htrack1 hpos hrun1 hcont1).cast ?_
      rw [hcountP]
      rfl
    · obtain ⟨hlast, hart⟩ := (hdrop ▸ hcont).flush_last (px := px) (hrunl ▸ hr) (Nat.not_lt.mp hlong)
      rw [← hcount'] at hlast
      rw [if_pos ⟨by omega, heq⟩] at hphase
      refine (Encoding.hdr hphase hsame (hlast ▸ htrack1)).cast ?_
      rw [scanSteps, hart, runChunkCount, ← hlast, hcountP]
      omega

theorem Encoding.chunk (hb : sentinel u = true ∨ px ≠ u.prev) (hr : u.run = 0)
    (hf : u.wptr.toNat + (encode (chunkFor u.cache u.prev px)).length ≤ u.outcap.toNat) :
    Encoding s (u.pos.toNat + l.chunks.countP isRunChunk + 1) (afterChunk px u) := by
  have htrack1 := htrack.chunk px hf
  have hrunl : l.run = 0 := by
    rw [← htrack.run, hr]
    rfl
  have hcountP : ∀ real, ((l.note real px).chunk px).chunks.countP isRunChunk = l.chunks.countP isRunChunk := by
    simp [Loop.chunk, Loop.note, isRunChunk_chunkFor]
  obtain ⟨hs, hlt, hdrop⟩ | ⟨hs, heq, hzero, hdrop⟩ := scan_cases hsame hpos hc <;> rw [hs] at htrack1
  · have hne : px ≠ l.prev := htrack.prev ▸ hb.resolve_left (by simp [hs])
    have hcont1 := (hdrop ▸ hcont).chunk hne hrunl
    obtain ⟨hphase, hpos1⟩ := afterChunk_of_real px hs
    have hpos2 : (afterChunk px u).pos.toNat = u.pos.toNat + 1 := by
      rw [hpos1]
      exact toNat_add_one hlt (npix_lt s)
    rw [← hpos2] at hcont1
    refine (Encoding.scan _ (hphase.trans hp) hsame htrack1 (hpos2.trans_le hlt) ?_ hcont1).cast ?_
    · exact (hrun.trans (Nat.le_succ _)).trans_eq hpos2.symm
    · rw [hpos2, hcountP]
      omega
  · subst hzero
    obtain ⟨hlast, hart⟩ := (hdrop ▸ hcont).chunk_sentinel hrunl
    refine (Encoding.hdr (afterChunk_of_sentinel _ hs) hsame (hlast ▸ htrack1)).cast ?_
    rw [scanSteps, hart, runChunkCount, ← hlast, hcountP, heq]

end

/-- The chunk that a scan operation emits is the next of the stream, whether it fits or not. -/
theorem next_chunk_prefix {s u : State} {l : Loop} {px : Pixel} (hsame : sameSurroundings s u) (htrack : Tracks l u)
    (hpos : u.pos.toNat ≤ npix s) (hcont : Continues (imageOf s) ((imageOf s).drop u.pos.toNat) l)
    (hc : cur u = some px) (hb : sentinel u = true ∨ px ≠ u.prev) :
    l.chunks ++ [select px u] <+: (scanImage (imageOf s)).chunks := by
  have hne : sentinel u = false → px ≠ l.prev := fun hs => htrack.prev ▸ hb.resolve_left (by simp [hs])
  by_cases hrun : 0 < u.run.toNat
  · have hrunl : 0 < l.run := htrack.run ▸ hrun
    have hsel : select px u = .runemit (min l.run 62) := htrack.run ▸ select_runemit hb hrun rfl
    rw [hsel]
    obtain ⟨hs, -, hdrop⟩ | ⟨-, -, -, hdrop⟩ := scan_cases hsame hpos hc
    · exact ((hdrop ▸ hcont).flush (hne hs) hrunl).prefix_chunks
    · by_cases hlong : 62 < l.run
      · exact ((hdrop ▸ hcont).flush_sentinel (px := px) hlong).prefix_chunks
      · obtain ⟨hlast, -⟩ := (hdrop ▸ hcont).flush_last (px := px) hrunl (Nat.not_lt.mp hlong)
        exact congrArg Loop.chunks hlast ▸ List.prefix_rfl
  · have hrun0 : u.run = 0 := by bv_omega
    have hrunl : l.run = 0 := by
      rw [← htrack.run, hrun0]
      rfl
    have hsel : select px u = chunkFor l.cache l.prev px := by
      rw [select_of_chunkTests hb hrun0, htrack.cache, htrack.prev]
    rw [hsel]
    obtain ⟨hs, -, hdrop⟩ | ⟨-, -, rfl, hdrop⟩ := scan_cases hsame hpos hc
    · exact ((hdrop ▸ hcont).chunk (hne hs) hrunl).prefix_chunks
    · obtain ⟨hlast, -⟩ := (hdrop ▸ hcont).chunk_sentinel hrunl
      exact congrArg Loop.chunks hlast ▸ List.prefix_rfl

/-- A chunk that does not fit shows that the stream does not. -/
theorem full_of_chunk {s u : State} {l : Loop} {i : Instr} (hsame : sameSurroundings s u) (htrack : Tracks l u)
    (hpre : l.chunks ++ [i] <+: (scanImage (imageOf s)).chunks)
    (hf : u.outcap.toNat < u.wptr.toNat + (encode i).length) : s.outcap.toNat < (reference s).length := by
  obtain ⟨tail, htail⟩ := hpre
  have hbody : (body l).length + (encode i).length ≤ (body (scanImage (imageOf s))).length := by
    rw [body, body, ← htail]
    simp only [List.flatMap_append, List.flatMap_cons, List.flatMap_nil, List.length_append, List.length_nil]
    omega
  rw [length_reference, ← hsame.outcap_eq]
  have hw := htrack.wptr
  omega

/-! ### The other moves -/

section
variable {s u : State} (hsame : sameSurroundings s u) (htrack : Tracks (scanImage (imageOf s)) u)
include hsame htrack

/-- The header that the block writes is the header of the loop. -/
theorem headerOf_eq :
    headerOf u = .header s.width s.height (channelByte (scanImage (imageOf s)).aseen) s.cspace := by
  obtain ⟨hw, hh, hcs, -⟩ := hsame
  rw [headerOf, hw, hh, hcs, htrack.aseen]

/-- HEADER completes the head of the stream. -/
theorem holds_header : holds (u.out.writeBytes 0 (encode (headerOf u))) 0 (streamHead s) := by
  have hlen : (encode (headerOf u)).length = 14 := rfl
  rw [streamHead, ← headerOf_eq hsame htrack]
  exact holds_append_iff.mpr ⟨holds_writeBytes _ _ _, holds_writeBytes_of_disjoint htrack.written (.inr hlen.le)⟩

theorem Encoding.header :
    Encoding s (scanSteps s + 1) { u with out := u.out.writeBytes 0 (encode (headerOf u)), phase := .fin } := by
  have hlen : (encode (headerOf u)).length = 14 := rfl
  refine .fin rfl hsame { htrack with written := ?_ } (holds_header hsame htrack)
  exact holds_writeBytes_of_disjoint htrack.written (.inr hlen.le)

theorem Encoding.endmark (hhead : holds u.out 0 (streamHead s)) (hf : u.wptr.toNat + 8 ≤ u.outcap.toNat) :
    Encoding s (scanSteps s + 1 + 1) { appendBytes (encode .endmark) u with phase := .done } := by
  have hw : u.wptr.toNat = 0 + (streamHead s).length := by rw [htrack.wptr, length_streamHead, Nat.zero_add]
  have hwptr : (u.wptr + BitVec.ofNat 64 8).toNat = (reference s).length := by
    rw [wptr_add_toNat hf, htrack.wptr, length_reference]
  refine .done rfl hsame (Nat.le_refl _) htrack.err htrack.aseen hwptr ?_ (holds_writeBytes_append hhead hw)
  rw [length_reference, ← htrack.wptr, ← hsame.outcap_eq]
  exact hf

theorem full_of_endmark (hf : u.outcap.toNat < u.wptr.toNat + 8) : s.outcap.toNat < (reference s).length := by
  rw [length_reference, ← htrack.wptr, ← hsame.outcap_eq]
  exact hf

end

/-- At rest an encode does not move any more. -/
theorem Encoding.rest {s u : State} {k : Nat} (h : Encoding s k u) (hb : busy u = false) : Encoding s (k + 1) u := by
  cases h with
  | done hp hsame hk herr haseen hw hfit hout =>
    exact .done hp hsame (hk.trans (Nat.le_succ k)) herr haseen hw hfit hout
  | error hp hsame hfull => exact .error hp hsame hfull
  | scan l hp => simp [busy, hp] at hb
  | hdr hp => simp [busy, hp] at hb
  | fin hp => simp [busy, hp] at hb

/-- Every move of the block is the next step of the encode. -/
theorem Encoding.move {s u v : State} {k : Nat} (h : Encoding s k u) (hm : BlockMove u v) : Encoding s (k + 1) v := by
  have hv := h.surroundings.trans hm.sameSurroundings
  cases hb : busy u with
  | false => exact hm.eq_of_rest hb ▸ h.rest hb
  | true =>
    cases h with
    | scan l hp hsame htrack hpos hrun hcont =>
      cases hm with
      | scan px _ _ hc hmove =>
        cases hmove with
        | acc hs heq => exact .acc hp hsame htrack hpos hrun hcont hc hs heq
        | flush count hb hr hcount hf => exact .flush hp hsame htrack hpos hrun hcont hc hb hr hcount hf
        | chunk i hb hr hi hf =>
          subst hi
          exact .chunk hp hsame htrack hpos hrun hcont hc hb hr hf
      | scanFault px _ hc hb hf =>
        exact .error rfl hv (full_of_chunk hsame htrack (next_chunk_prefix hsame htrack hpos hcont hc hb) hf)
      | rest hb' => simp [hb] at hb'
      | header hp' => simp [hp] at hp'
      | endmark hp' => simp [hp] at hp'
      | endFault hp' => simp [hp] at hp'
    | hdr hp hsame htrack =>
      cases hm with
      | header => exact .header hsame htrack
      | rest hb' => simp [hb] at hb'
      | scan px _ hp' => simp [hp] at hp'
      | scanFault px hp' => simp [hp] at hp'
      | endmark hp' => simp [hp] at hp'
      | endFault hp' => simp [hp] at hp'
    | fin hp hsame htrack hhead =>
      cases hm with
      | endmark _ hf => exact .endmark hsame htrack hhead hf
      | endFault _ hf => exact .error rfl hv (full_of_endmark hsame htrack hf)
      | rest hb' => simp [hb] at hb'
      | scan px _ hp' => simp [hp] at hp'
      | scanFault px hp' => simp [hp] at hp'
      | header hp' => simp [hp] at hp'
    | done hp => simp [busy, hp] at hb
    | error hp => simp [busy, hp] at hb

/-! ### Runs from START -/

/-- Right after START no chunk is written and the whole image is left. -/
theorem Encoding.start (s : State) : Encoding s 0 (startState s) := by
  have hsame := sameSurroundings_startState s
  by_cases hcap : s.outcap.toNat < 14
  · refine .error ((startState_phase_eq_error_iff s).mpr hcap) hsame ?_
    rw [length_reference]
    omega
  · have hstart : Machine.startState s = { initEncode s with phase := .scan } := if_neg hcap
    have htrack : Tracks Loop.start { initEncode s with phase := .scan } :=
      ⟨rfl, rfl, rfl, rfl, rfl, rfl, Nat.not_lt.mp hcap, fun _ _ h => by simp [body, Loop.start] at h⟩
    rw [hstart] at hsame ⊢
    exact .scan Loop.start rfl hsame htrack (Nat.zero_le _) (Nat.le_refl _) ⟨rfl, Iff.rfl⟩

/-- The block runs on from every state of the encode when the image is provided. -/
theorem Encoding.exists_run {s u : State} {j : Nat} (h : Encoding s j u) (hh : s.host = []) (hp : provided s)
    (k : Nat) :
    ∃ v : State, Host.Core.run core k u = .next v ∧ Encoding s (j + k) v := by
  induction k generalizing u j with
  | zero => exact ⟨u, rfl, h⟩
  | succ k ih =>
    have hsame := h.surroundings
    obtain ⟨v, hstep, hmove⟩ := exists_move (hsame.host_eq.trans hh) (provided_of_sameSurroundings hsame hp)
    obtain ⟨w, hrun, hw⟩ := ih (h.move hmove)
    exact ⟨w, run_succ_eq_next_iff.mpr ⟨v, hstep, hrun⟩, hw.cast (by omega)⟩

/-- Every state that a run from START reaches is a state of the encode. -/
theorem encoding_of_run {s t u : State} {k : Nat} (hb : busy s = false) (hh : s.host = []) (hp : provided s)
    (hexec : exec .start s = .next t) (hrun : Host.Core.run core k t = .next u) : Encoding s k u := by
  obtain rfl : startState s = t := by simpa [exec_start_of_rest hb] using hexec
  obtain ⟨v, hrun', hv⟩ := (Encoding.start s).exists_run hh hp k
  obtain rfl : v = u := Host.Outcome.next.inj (hrun'.symm.trans hrun)
  exact hv.cast (Nat.zero_add k)

theorem exists_run_of_start {s t : State} (hb : busy s = false) (hh : s.host = []) (hp : provided s)
    (hexec : exec .start s = .next t) (k : Nat) : ∃ u : State, Host.Core.run core k t = .next u ∧ Encoding s k u := by
  obtain rfl : startState s = t := by simpa [exec_start_of_rest hb] using hexec
  obtain ⟨u, hrun, hu⟩ := (Encoding.start s).exists_run hh hp k
  exact ⟨u, hrun, hu.cast (Nat.zero_add k)⟩

/-- In the scan no more steps are taken than the scan has. -/
theorem scan_steps_le {s u : State} {l : Loop} (hpos : u.pos.toNat ≤ npix s)
    (hcont : Continues (imageOf s) ((imageOf s).drop u.pos.toNat) l) :
    u.pos.toNat + l.chunks.countP isRunChunk ≤ scanSteps s := by
  have hle : l.chunks.countP isRunChunk ≤ runChunkCount (imageOf s) := hcont.prefix_chunks.sublist.countP_le
  unfold scanSteps
  omega

/-- Before the counted steps the encode of a stream that fits is BUSY. -/
theorem Encoding.busy_before {s u : State} {k : Nat} (h : Encoding s k u)
    (hfit : (reference s).length ≤ s.outcap.toNat) (hk : k < scanSteps s + 2) : busy u = true := by
  cases h with
  | scan l hp => exact busy_of_scan hp
  | hdr hp => exact busy_of_hdr hp
  | fin hp => exact busy_of_fin hp
  | done hp _ hk' => omega
  | error _ _ hfull => omega

/-- From the counted steps on every encode is in DONE or ERROR. -/
theorem Encoding.at_rest {s u : State} {k : Nat} (h : Encoding s k u) (hk : scanSteps s + 2 ≤ k) :
    u.phase = .done ∨ u.phase = .error := by
  cases h with
  | scan l hp hsame htrack hpos hrun hcont =>
    have hle := scan_steps_le hpos hcont
    omega
  | hdr hp => omega
  | fin hp => omega
  | done hp => exact .inl hp
  | error hp => exact .inr hp

/-- In DONE the stream is the loop's, byte for byte, and it fits. -/
theorem Encoding.stream {s u : State} {k : Nat} (h : Encoding s k u) (hd : u.phase = .done) :
    u.err = .none ∧ u.aseen = (scanImage (imageOf s)).aseen ∧ u.wptr.toNat = (reference s).length
      ∧ (reference s).length ≤ s.outcap.toNat ∧ holds u.out 0 (reference s) := by
  cases h with
  | done hp hsame hk herr haseen hw hfit hout => exact ⟨herr, haseen, hw, hfit, hout⟩
  | scan l hp => simp [hd] at hp
  | hdr hp => simp [hd] at hp
  | fin hp => simp [hd] at hp
  | error hp => simp [hd] at hp

theorem Encoding.full_of_error {s u : State} {k : Nat} (h : Encoding s k u) (he : u.phase = .error) :
    s.outcap.toNat < (reference s).length := by
  cases h with
  | error hp hsame hfull => exact hfull
  | scan l hp => simp [he] at hp
  | hdr hp => simp [he] at hp
  | fin hp => simp [he] at hp
  | done hp => simp [he] at hp

/-- From the counted steps on the encode of a stream that fits is in DONE. -/
theorem Encoding.done_of_fits {s u : State} {k : Nat} (h : Encoding s k u)
    (hfit : (reference s).length ≤ s.outcap.toNat) (hk : scanSteps s + 2 ≤ k) : u.phase = .done :=
  (h.at_rest hk).resolve_right fun he => Nat.not_lt.mpr hfit (h.full_of_error he)

/-- What the host reads in DONE is the loop's stream. -/
theorem hostOut_of_holds {u : State} {bytes : List Byte} (hd : u.phase = .done) (hw : u.wptr.toNat = bytes.length)
    (hout : holds u.out 0 bytes) (a : Nat) : hostOut u a = bytes[a]? := by
  unfold hostOut
  by_cases ha : a < bytes.length
  · rw [if_pos ⟨hd, hw ▸ ha⟩, List.getElem?_eq_getElem ha]
    simpa using hout a _ (List.getElem?_eq_getElem ha)
  · rw [if_neg fun h => ha (hw ▸ h.2), List.getElem?_eq_none (Nat.not_lt.mp ha)]

/-- Settles O47: after the counted steps the block is in DONE, and there the stream is the loop's. -/
theorem encodeLeavesTheReferenceStream : Obligations.EncodeLeavesTheReferenceStream := by
  unfold Obligations.EncodeLeavesTheReferenceStream
  intro s t hb hh _ _ hp hfit hexec
  obtain ⟨u, hrun, hu⟩ := exists_run_of_start hb hh hp hexec (scanSteps s + 2)
  have hd := hu.done_of_fits hfit (Nat.le_refl _)
  obtain ⟨herr, -, hw, -, hout⟩ := hu.stream hd
  refine ⟨_, u, hrun, hd, herr, ?_, hostOut_of_holds hd hw hout⟩
  simp [readCsr, outlen, hd, hw]

/-- Settles O48: the course of the encode counts its steps, and the loop bounds the count. -/
theorem encodeTakesTheCountedSteps : Obligations.EncodeTakesTheCountedSteps := by
  unfold Obligations.EncodeTakesTheCountedSteps
  rintro s t _ hb hh - - hp hfit hexec rfl
  refine ⟨?_, fun k hk => ?_, ?_⟩
  · obtain ⟨u, hrun, hu⟩ := exists_run_of_start hb hh hp hexec (scanSteps s + 2)
    exact ⟨u, hrun, hu.done_of_fits hfit (Nat.le_refl _)⟩
  · obtain ⟨u, hrun, hu⟩ := exists_run_of_start hb hh hp hexec k
    exact ⟨u, hrun, hu.busy_before hfit hk⟩
  · have hle := runChunkCount_add_artifactCount_le (imageOf s)
    rw [length_imageOf] at hle
    omega

/-- Settles O49: after the counted steps the encode is in DONE or ERROR, and each of them decides whether the stream
fits. -/
theorem encodeCompletesExactlyWhenItFits : Obligations.EncodeCompletesExactlyWhenItFits := by
  unfold Obligations.EncodeCompletesExactlyWhenItFits
  intro s t hb hh _ _ hp hexec
  obtain ⟨u, hrun, hu⟩ := exists_run_of_start hb hh hp hexec (scanSteps s + 2)
  have hfits : ∀ (k : Nat) (v : State), Host.Core.run core k t = .next v → v.phase = .done →
      (reference s).length ≤ s.outcap.toNat := fun k v hv hd =>
    have ⟨_, _, _, hfit, _⟩ := (encoding_of_run hb hh hp hexec hv).stream hd
    hfit
  refine ⟨⟨fun ⟨k, v, hv, hd⟩ => hfits k v hv hd, fun hfit => ?_⟩, ⟨fun ⟨k, v, hv, he⟩ => ?_, fun hfull => ?_⟩⟩
  · exact ⟨_, u, hrun, hu.done_of_fits hfit (Nat.le_refl _)⟩
  · exact (encoding_of_run hb hh hp hexec hv).full_of_error he
  · refine ⟨_, u, hrun, (hu.at_rest (Nat.le_refl _)).resolve_left fun hd => ?_⟩
    exact Nat.not_lt.mpr (hfits _ u hrun hd) hfull

/-! ### The header in DONE -/

/-- The loop notes an alpha below 255 of any pixel of the image. -/
theorem aseen_foldl (pixels : List Pixel) (l : Loop) :
    (pixels.foldl Loop.pixel l).aseen = true ↔ l.aseen = true ∨ ∃ px ∈ pixels, px.a.toNat < 255 := by
  induction pixels generalizing l with
  | nil => simp
  | cons px pixels ih =>
    have hpass : (l.pixel px).aseen = (l.aseen || decide (px.a.toNat < 255)) := by
      by_cases h : px = l.prev
      · rw [Loop.pixel_of_eq h]
      · rw [Loop.pixel_of_ne h]
    rw [List.foldl_cons, ih, hpass]
    simp [or_assoc]

theorem aseen_sentinel (l : Loop) : l.sentinel.aseen = l.aseen := by
  unfold Loop.sentinel
  split_ifs <;> rfl

/-- The artifact's alpha is not noted (10_state.md R16). -/
theorem aseen_scanImage (pixels : List Pixel) :
    (scanImage pixels).aseen = true ↔ ∃ px ∈ pixels, px.a.toNat < 255 := by
  rw [scanImage, aseen_sentinel, scanPixels, aseen_foldl]
  simp [Loop.start]

theorem alpha_opaque_iff (a : Byte) : a = 255 ↔ ¬ a.toNat < 255 := by
  have hlt := a.isLt
  bv_omega

/-- The header of the stream, by offset. -/
theorem getElem?_reference {s : State} {j : Nat} (h : j < 14) :
    (reference s)[j]? = (Config.magic ++ be32 s.width ++ be32 s.height
      ++ [channelByte (scanImage (imageOf s)).aseen, s.cspace])[j]? := by
  rw [reference_eq, streamHead, List.append_assoc]
  exact List.getElem?_append_left h

/-- Settles O52: in DONE the host reads the loop's header, whose channel byte is the loop's ASEEN. -/
theorem doneHeaderDescribesTheImage : Obligations.DoneHeaderDescribesTheImage := by
  unfold Obligations.DoneHeaderDescribesTheImage
  intro s t u k hb hh _ _ hp hexec hrun hd
  obtain ⟨-, haseen, hw, -, hout⟩ := (encoding_of_run hb hh hp hexec hrun).stream hd
  have hread := hostOut_of_holds hd hw hout
  have hchannel : hostOut u 12 = some (channelByte (scanImage (imageOf s)).aseen) := by
    rw [hread, getElem?_reference (by decide)]
    rfl
  refine ⟨fun j v hj => ?_, ?_, ?_, ?_, ?_⟩
  · have hlt : j < 12 := (List.getElem?_eq_some_iff.mp hj).1
    rw [hread, getElem?_reference (by omega), List.getElem?_append_left (show j < 12 from hlt)]
    exact hj
  · rw [hread, getElem?_reference (by decide)]
    rfl
  · have hall : (∀ px ∈ imageOf s, px.a = 255) ↔ ¬ (scanImage (imageOf s)).aseen = true := by
      simp only [aseen_scanImage, alpha_opaque_iff, not_exists, not_and]
    rw [hall, hchannel]
    cases (scanImage (imageOf s)).aseen <;> decide
  · rw [← aseen_scanImage, hchannel]
    cases (scanImage (imageOf s)).aseen <;> decide
  · rw [hchannel]
    simp [readCsr, channels, hd, haseen]

end Sys2Proof.Machine
end
